-- ==== Sys2Proof/Word.lean ====
section
/-! DEFINITION. The words the core works on: payload bytes (00_scope.md R8, `BYTE_W`), raw 16-bit fields (`RAW_W`)
and binary64 values as their 64-bit patterns (R11, R20). -/

namespace Sys2Proof

/-- One element of the ByteSequence: an unsigned 8-bit value (10_state.md R13). -/
abbrev Byte := BitVec 8

/-- A raw two-byte field, before any reinterpretation (30_encoding.md R55). -/
abbrev Raw := BitVec 16

/-- An IEEE-754 binary64 value as its bit pattern: bit 63 the sign, bits 62..52 the exponent biased by 1023, bits
51..0 the fraction (00_scope.md R11). The arithmetic is in Machine/Float.lean. -/
abbrev F64 := BitVec 64

end Sys2Proof
end

