-- ==== Sys2Proof/Syntax.lean ====
section
/-! DEFINITION. The operations of the core (30_encoding.md R60), the five record slots (10_state.md R20) and the three
kinds of word that select an operation (30_encoding.md R50, R51, R61). -/

namespace Sys2Proof

/-- The five slots of the record, by their keys (10_state.md R19, R20). -/
inductive Slot where
  | vbattery
  | vsystem
  | boot
  | temperatureC
  | differentialPressure
  deriving DecidableEq, Repr

/-- The 15 operations, one constructor per row of the opcode table. None has an operand: every operand is assembled
from payload bytes at the cursor (30_encoding.md R59; log entry 14 for DECODE's low header byte). -/
inductive Instr where
  /-- DECODE, the message operation (44_message_decoder.md R94). -/
  | decode
  /-- SEL.VBAT (44_message_decoder.md R100). -/
  | selVbat
  /-- SEL.VSYS (44_message_decoder.md R101). -/
  | selVsys
  /-- SEL.BOOT (44_message_decoder.md R102). -/
  | selBoot
  /-- SEL.TEMPC (44_message_decoder.md R103). -/
  | selTempc
  /-- SEL.DP (44_message_decoder.md R104). -/
  | selDp
  /-- READU8 (40_cursor_reads.md R69). -/
  | readu8
  /-- READU16 (40_cursor_reads.md R70). -/
  | readu16
  /-- DECU16 (41_integer_decoders.md R73). -/
  | decu16
  /-- DECI16 (41_integer_decoders.md R74). -/
  | deci16
  /-- DECUFLT16 (42_compact_float.md R79). -/
  | decuflt16
  /-- DECSFLT16 (42_compact_float.md R80). -/
  | decsflt16
  /-- DECDP (43_scaled_fields.md R90). -/
  | decdp
  /-- DECVOLT (43_scaled_fields.md R88). -/
  | decvolt
  /-- DECTEMPC (43_scaled_fields.md R89). -/
  | dectempc
  deriving DecidableEq, Repr

/-- A word that selects an operation, in the format it is read in. -/
inductive CodeWord where
  /-- Format ENV: payload byte 0 in bits 15..8, payload byte 1 in bits 7..0 (30_encoding.md R50). -/
  | env (header : BitVec 16)
  /-- Format SEL: the FlagBitmap, tested for one slot's row (30_encoding.md R51). -/
  | sel (slot : Slot) (flags : Byte)
  /-- Format CMD: the host's command code (30_encoding.md R61). -/
  | cmd (code : BitVec 4)
  deriving DecidableEq, Repr

end Sys2Proof
end

