-- ==== Sys2Proof/WellFormed.lean ====
section
/-! DEFINITION. Which terms are well formed. An operation has no operand, so every `Instr` is; a code word is well formed
when it selects an operation, said here from the prose of 30_encoding.md R50, R51 and R63 and not from the decoder. -/

namespace Sys2Proof

/-- No operation carries an operand (30_encoding.md R59), so there is nothing to check. -/
def Instr.wellFormed (_ : Instr) : Bool := true

/-- A header is well formed when bits 15..8 hold the format discriminator 0x1F (30_encoding.md R50); a bitmap is a word of
a slot's operation when that slot's bit is 1 (R51), whatever its other bits; a command code is well formed when it is
not one of the reserved 0xA to 0xF (R63). -/
def CodeWord.wellFormed : CodeWord → Bool
  | .env header => header.toNat / 256 == 31
  | .sel .vbattery flags => flags.toNat % 2 == 1
  | .sel .vsystem flags => flags.toNat / 2 % 2 == 1
  | .sel .boot flags => flags.toNat / 4 % 2 == 1
  | .sel .temperatureC flags => flags.toNat / 8 % 2 == 1
  | .sel .differentialPressure flags => flags.toNat / 16 % 2 == 1
  | .cmd code => code.toNat < 10

end Sys2Proof
end

