-- ==== Sys2Proof/Decode.lean ====
section
/-! DEFINITION. The decoder of the three selecting formats, total and rejecting by name, and after it the encoder, both
from 30_encoding.md R50, R51, R60 and R61. -/

namespace Sys2Proof

/-- The format discriminator of payload byte 0, `FMT` (00_scope.md R8). -/
def formatByte : Byte := 0x1F#8

/-- Why a word selects no operation. None of these is an exception of the core: a format mismatch makes DECODE answer
NotApplicable (30_encoding.md R64), a clear bit skips its slot (44_message_decoder.md R99), a reserved command makes
START do nothing (30_encoding.md R63). -/
inductive DecodeError where
  /-- Payload byte 0 is not 0x1F. -/
  | formatMismatch (byte0 : Byte)
  /-- The slot's bit of the FlagBitmap is 0. -/
  | notSelected (slot : Slot)
  /-- Command code 0xA to 0xF. -/
  | reservedCommand (code : BitVec 4)
  deriving DecidableEq, Repr

/-- The bit of the FlagBitmap, and the number of the slot in REC and PRES (10_state.md R19). -/
def Slot.index : Slot → Nat
  | .vbattery => 0
  | .vsystem => 1
  | .boot => 2
  | .temperatureC => 3
  | .differentialPressure => 4

/-- The slots in ascending bit order (30_encoding.md R51). -/
def Slot.all : List Slot := [.vbattery, .vsystem, .boot, .temperatureC, .differentialPressure]

/-- The field-select operation of a slot (30_encoding.md R51). -/
def Slot.instr : Slot → Instr
  | .vbattery => .selVbat
  | .vsystem => .selVsys
  | .boot => .selBoot
  | .temperatureC => .selTempc
  | .differentialPressure => .selDp

/-- `FLAGS & (1 << i) != 0` (30_encoding.md R51). -/
def Slot.selected (i : Slot) (flags : Byte) : Bool := flags.getLsbD i.index

/-- Format ENV: byte 0 alone selects DECODE (30_encoding.md R50, R64). -/
def decodeEnv (byte0 : Byte) : Except DecodeError Instr :=
  if byte0 = formatByte then .ok .decode else .error (.formatMismatch byte0)

/-- Format SEL, one slot's row tested against the bitmap (30_encoding.md R51); the other bits are don't-care (R62). -/
def decodeSel (i : Slot) (flags : Byte) : Except DecodeError Instr :=
  if i.selected flags then .ok i.instr else .error (.notSelected i)

/-- Format CMD (30_encoding.md R61). -/
def decodeCmd (code : BitVec 4) : Except DecodeError Instr :=
  match code.toNat with
  | 0 => .ok .decode
  | 1 => .ok .readu8
  | 2 => .ok .readu16
  | 3 => .ok .decu16
  | 4 => .ok .deci16
  | 5 => .ok .decuflt16
  | 6 => .ok .decsflt16
  | 7 => .ok .decdp
  | 8 => .ok .decvolt
  | 9 => .ok .dectempc
  | _ => .error (.reservedCommand code)

/-- The decoder: total on every word of every format. -/
def decode : CodeWord → Except DecodeError Instr
  | .env header => decodeEnv (header.extractLsb' 8 8)
  | .sel i flags => decodeSel i flags
  | .cmd code => decodeCmd code

/-- Every operation a bitmap selects, in the order they execute: every SEL row is tested, the first match does not end
the list (30_encoding.md R51). -/
def decodeBitmap (flags : Byte) : List Instr :=
  (Slot.all.filter (fun i => i.selected flags)).map Slot.instr

/-- A payload's first byte as format ENV; the rest of the bytes is returned. `none`: the sequence is empty. -/
def decodeMessage : List Byte → Option (Except DecodeError Instr × List Byte)
  | [] => none
  | byte0 :: rest => some (decodeEnv byte0, rest)

/-- The encoder: the word of the opcode table's `match` column, don't-care bits 0 (30_encoding.md R50, R51, R60). -/
def encode : Instr → CodeWord
  | .decode => .env 0x1F00#16
  | .selVbat => .sel .vbattery 0x01#8
  | .selVsys => .sel .vsystem 0x02#8
  | .selBoot => .sel .boot 0x04#8
  | .selTempc => .sel .temperatureC 0x08#8
  | .selDp => .sel .differentialPressure 0x10#8
  | .readu8 => .cmd 0x1#4
  | .readu16 => .cmd 0x2#4
  | .decu16 => .cmd 0x3#4
  | .deci16 => .cmd 0x4#4
  | .decuflt16 => .cmd 0x5#4
  | .decsflt16 => .cmd 0x6#4
  | .decdp => .cmd 0x7#4
  | .decvolt => .cmd 0x8#4
  | .dectempc => .cmd 0x9#4

/-- An 8-bit word holding exactly one of the five assigned bitmap bits names one field operation; its slot. -/
def oneHotSlot (flags : Byte) : Option Slot :=
  match Slot.all.filter (fun i => i.selected flags) with
  | [i] => some i
  | _ => none

/-- Which format a table word of `nbits` bits is read in (DESIGN CHOICE, log entry 13): 16 bits ENV, 4 bits CMD, 8 bits SEL
where exactly one of bits 4..0 is set and otherwise, if bits 7..4 are 0, a CMD code widened to a byte. -/
def tableCodeWord (nbits w : Nat) : Option CodeWord :=
  match nbits with
  | 16 => some (.env (BitVec.ofNat 16 w))
  | 8 =>
    match oneHotSlot (BitVec.ofNat 8 w) with
    | some i => some (.sel i (BitVec.ofNat 8 w))
    | none => if w < 16 then some (.cmd (BitVec.ofNat 4 w)) else none
  | 4 => some (.cmd (BitVec.ofNat 4 w))
  | _ => none

/-- The operation the decoder reads from a word numbered as the opcode table numbers it. -/
def decodeTableWord (nbits w : Nat) : Option Instr :=
  match tableCodeWord nbits w with
  | none => none
  | some word =>
    match decode word with
    | .ok i => some i
    | .error _ => none

end Sys2Proof
end

