-- ==== Sys2Proof/Machine/State.lean ====
section
/-! DEFINITION. The state of the core as plain data (10_state.md R13 to R33), the reasons a step can stop, and the state
after reset. -/

namespace Sys2Proof.Machine

/-- The ByteSequence B with its length LEN (10_state.md R13, R14). `cells` lists the bytes other than 0x00 below `len`, by
strictly rising offset: the canonical form `Memory.wf` of Ops.lean (log entry 6). -/
structure Memory where
  len : Nat
  cells : List Host.Cell
  deriving DecidableEq, Repr

/-- RESULT (10_state.md R23). -/
inductive ResultTag where
  /-- NONE: no pass has ended since RESET or START. -/
  | none
  /-- NOT_APPLICABLE: the message is not this block's. -/
  | notApplicable
  /-- OK: `Decoded(record)` or `Value`. -/
  | ok
  /-- ERROR: the pass ended in OutOfRange. -/
  | error
  deriving DecidableEq, Repr

/-- ERRCODE (10_state.md R24). -/
inductive ErrCode where
  | none
  | outOfRange
  deriving DecidableEq, Repr

/-- PHASE, the sequencer's position (10_state.md R28); `field i` is the phase F0 to F4 of slot i. The codes 10 to 15 are
never entered and have no constructor. -/
inductive Phase where
  | idle
  | env
  | bmp
  | field (i : Slot)
  | done
  | prim
  deriving DecidableEq, Repr

/-- What VAL holds: an unsigned integer, a signed integer or a binary64 value (10_state.md R27, 92_eei_decisions.md D25). -/
inductive Value where
  | unsigned (n : Nat)
  | signed (z : Int)
  | float (x : F64)
  deriving DecidableEq, Repr

/-- REC[0..4] (10_state.md R20). `none` is the spec's "no value" (R33). -/
structure Record where
  vbattery : Option F64
  vsystem : Option F64
  boot : Option Byte
  temperatureC : Option F64
  differentialPressure : Option F64
  deriving DecidableEq, Repr

/-- What the host does at one step of the core (10_state.md R29, R32). -/
inductive HostMove where
  /-- Nothing. -/
  | wait
  /-- The START event. -/
  | start
  /-- The RESET event. -/
  | reset
  /-- The inputs are set: B (whole, with its length), PORT_VALID, PORT, CMD, OFF_INIT. -/
  | supply (bytes : List Byte) (portValid : Bool) (port : Nat) (cmd : BitVec 4) (offInit : Nat)
  deriving DecidableEq, Repr

structure State where
  /-- B and LEN, an input (10_state.md R13, R14). -/
  seq : Memory
  /-- PORT_VALID, an input (10_state.md R25). -/
  portValid : Bool
  /-- PORT, an input (10_state.md R25). -/
  port : Nat
  /-- CMD, an input (10_state.md R26). -/
  cmd : BitVec 4
  /-- OFF_INIT, an input (10_state.md R26). -/
  offInit : Nat
  /-- OFF, the Cursor offset (10_state.md R16). -/
  off : Nat
  /-- FLAGS, the FlagBitmap latch (10_state.md R18). -/
  flags : Byte
  /-- REC[0..4] (10_state.md R20). -/
  record : Record
  /-- PRES[4:0] (10_state.md R21). -/
  pres : BitVec 5
  /-- VAL; `none` is "no value" (10_state.md R27). -/
  val : Option Value
  /-- RESULT (10_state.md R23). -/
  result : ResultTag
  /-- ERRCODE (10_state.md R24). -/
  errcode : ErrCode
  /-- PHASE (10_state.md R28). -/
  phase : Phase
  /-- What the host does at the coming steps, the head first; past its end the host waits (DESIGN CHOICE, log entry 2). -/
  host : List HostMove
  deriving DecidableEq, Repr

/-- Why the machine is stuck. OutOfRange is not here: it is an exception whose entry the spec describes
(60_exceptions.md R122), so it is a next state. -/
inductive Fault where
  /-- Raised by the step alone, in phase PRIM with a CMD that names no primitive command. The spec gives that state no row
  (44_message_decoder.md R110) and no run reaches it. Safe: the model stops. Log entry 12. -/
  | noPrimitiveCommand (cmd : BitVec 4)
  deriving DecidableEq, Repr

/-- What the model has no step for. -/
inductive Refusal where
  /-- An instruction without a meaning; raised by no arm of `exec` (every instruction has its meaning). Safe. -/
  | notModelled (mnemonic : String)
  /-- Raised by the step alone: the host changes an input while the core is BUSY (93_implementation_defined.md U8,
  `refuse`: the spec gives the outcome no meaning). Safe in itself; what it assumes of the host is log entry 10. -/
  | inputsChangedWhileBusy
  deriving DecidableEq, Repr

/-- The record with every slot absent (10_state.md R33). -/
def Record.empty : Record where
  vbattery := none
  vsystem := none
  boot := none
  temperatureC := none
  differentialPressure := none

/-- The machine right after RESET (10_state.md R31). The inputs belong to the host and the spec gives them no reset value:
the empty sequence, no port, CMD 0 and OFF_INIT 0 are a DESIGN CHOICE, and so is a host that does nothing (log entry 4,
unsafe). -/
def State.reset : State where
  seq := ⟨0, []⟩
  portValid := false
  port := 0
  cmd := 0#4
  offInit := 0
  off := 0
  flags := 0x00#8
  record := Record.empty
  pres := 0#5
  val := none
  result := .none
  errcode := .none
  phase := .idle
  host := []

end Sys2Proof.Machine
end

