-- ==== Sys2Proof/Machine/Flags.lean ====
section
/-! DEFINITION. What the FlagBitmap says of a message: field widths, starts and length (30_encoding.md R51 to R53), the
presence bits (10_state.md R21), and the predicates on PHASE (10_state.md R28). -/

namespace Sys2Proof.Machine

/-- The width in bytes of a slot's field (30_encoding.md R51). -/
def fieldWidth : Slot → Nat
  | .vbattery => 2
  | .vsystem => 2
  | .boot => 1
  | .temperatureC => 2
  | .differentialPressure => 2

/-- The width of a slot's field if its bit is set, else 0. -/
def widthIn (flags : Byte) (i : Slot) : Nat := if i.selected flags then fieldWidth i else 0

/-- `start_i`, where the field of slot i begins when its bit is set (30_encoding.md R52). -/
def fieldStart (flags : Byte) : Slot → Nat
  | .vbattery => 2
  | .vsystem => 2 + widthIn flags .vbattery
  | .boot => 2 + widthIn flags .vbattery + widthIn flags .vsystem
  | .temperatureC => 2 + widthIn flags .vbattery + widthIn flags .vsystem + widthIn flags .boot
  | .differentialPressure =>
    2 + widthIn flags .vbattery + widthIn flags .vsystem + widthIn flags .boot + widthIn flags .temperatureC

/-- `need`, the number of bytes a successful DECODE examines (30_encoding.md R53). -/
def messageLength (flags : Byte) : Nat :=
  fieldStart flags .differentialPressure + widthIn flags .differentialPressure

/-- The bit of PRES that belongs to a slot (10_state.md R21). -/
def presenceBit : Slot → BitVec 5
  | .vbattery => 0b00001#5
  | .vsystem => 0b00010#5
  | .boot => 0b00100#5
  | .temperatureC => 0b01000#5
  | .differentialPressure => 0b10000#5

/-- PRES with a slot's bit set (10_state.md R21). -/
def withPresent (pres : BitVec 5) (i : Slot) : BitVec 5 := pres ||| presenceBit i

/-- BUSY: PHASE is 1..7 or 9 (10_state.md R28). -/
def Phase.busy : Phase → Bool
  | .idle => false
  | .env => true
  | .bmp => true
  | .field _ => true
  | .done => false
  | .prim => true

end Sys2Proof.Machine
end

