-- ==== Sys2Proof/Config.lean ====
section
/-! DEFINITION. What the spec leaves free. The core's fixed parameters (00_scope.md R8: port 1, format byte 0x1F, the
scale factors) are definitions of Decode.lean and Machine/Operands.lean; `LEN_W` and `PORT_W` are OPEN and the model
takes natural numbers for LEN, OFF, OFF_INIT and PORT, as 92_eei_decisions.md D5 allows (log entry 5). -/

namespace Sys2Proof

/-- Free value (DESIGN CHOICE, log entry 11, safe): what a binary64 product is when an operand is an infinity or a NaN.
No operation of the core multiplies such a value (42_compact_float.md R84), and the spec states no result for it. -/
opaque Config.fmulSpecial : F64 → F64 → F64

/-- Free value (DESIGN CHOICE, log entry 11, safe): what a binary64 quotient is when an operand is an infinity or a NaN,
or the divisor is zero. The core's divisors are 4096.0, 2048.0, 200.0 and 60.0 (42_compact_float.md R84). -/
opaque Config.fdivSpecial : F64 → F64 → F64

end Sys2Proof
end

