-- ==== Sys2Proof/Machine/Float.lean ====
section
/-! DEFINITION. Binary64 arithmetic as the rules use it (00_scope.md R11): `RN`, `i2f`, `fmul`, `fdiv`, `pow2`. Each is
computed exactly on integers and rounded once, to nearest, ties to even. The places of the fields in the pattern, the
subnormals and the infinity an overflow rounds to are IEEE-754 facts (R11, 93_implementation_defined.md G2, G3; PRESUMED
beyond R11's words, log entry 9). -/

namespace Sys2Proof.Machine

/-- The sign bit. -/
def f64Sign (x : F64) : Bool := x.msb

/-- The exponent field, bits 62..52, biased by 1023. -/
def f64Exponent (x : F64) : Nat := x.toNat / 2 ^ 52 % 2 ^ 11

/-- The fraction field, bits 51..0. -/
def f64Fraction (x : F64) : Nat := x.toNat % 2 ^ 52

/-- Neither an infinity nor a NaN. -/
def f64Finite (x : F64) : Bool := f64Exponent x != 2047

/-- The integer significand: with the hidden bit where the exponent field is not 0. -/
def f64Significand (x : F64) : Nat :=
  if f64Exponent x = 0 then f64Fraction x else 2 ^ 52 + f64Fraction x

/-- The power of two that scales the significand. -/
def f64Scale (x : F64) : Int := (max (f64Exponent x) 1 : Nat) - 1075

/-- The pattern with a given sign and lower 63 bits; a magnitude at or above that of infinity is infinity. -/
def f64Pack (neg : Bool) (magnitude : Nat) : F64 :=
  BitVec.ofNat 64 ((if neg then 2 ^ 63 else 0) + min magnitude (2047 * 2 ^ 52))

/-- The k with `2^k <= n/d < 2^(k+1)`, for positive n and d. -/
def floorLog2 (n d : Nat) : Int :=
  let k : Int := (n.log2 : Int) - (d.log2 : Int)
  if d * 2 ^ k.toNat ≤ n * 2 ^ (-k).toNat then k else k - 1

/-- `n / d` rounded to the nearest integer, ties to the even one. -/
def divRoundEven (n d : Nat) : Nat :=
  let q := n / d
  let r := n % d
  if d < 2 * r ∨ (2 * r = d ∧ q % 2 = 1) then q + 1 else q

/-- `RN` of the real number `(-1)^neg * (n / d) * 2^k`, d positive (00_scope.md R11); a zero takes the given sign. -/
def roundNearest (neg : Bool) (n d : Nat) (k : Int) : F64 :=
  if n = 0 then f64Pack neg 0
  else
    let ulp : Int := max (floorLog2 n d + k - 52) (-1074)
    let shift : Int := k - ulp
    let m := divRoundEven (n * 2 ^ shift.toNat) (d * 2 ^ (-shift).toNat)
    f64Pack neg ((ulp + 1074).toNat * 2 ^ 52 + m)

/-- `i2f`: an integer as a binary64 value; `i2f 0 = +0` (00_scope.md R11). -/
def i2f (z : Int) : F64 := roundNearest (decide (z < 0)) z.natAbs 1 0

/-- `pow2 k`, the binary64 value exactly equal to 2^k, for k in -27..0 (00_scope.md R11, 42_compact_float.md R87). -/
def pow2 (k : Int) : F64 := f64Pack false ((k + 1023).toNat * 2 ^ 52)

/-- `fmul a b = RN (a * b)`, a zero product signed by the exclusive-or of the signs (00_scope.md R11). -/
def fmul (a b : F64) : F64 :=
  if f64Finite a && f64Finite b then
    roundNearest (f64Sign a ^^ f64Sign b) (f64Significand a * f64Significand b) 1 (f64Scale a + f64Scale b)
  else Config.fmulSpecial a b

/-- `fdiv a b = RN (a / b)`, a zero quotient signed by the exclusive-or of the signs (00_scope.md R11). -/
def fdiv (a b : F64) : F64 :=
  if f64Finite a && f64Finite b && f64Significand b != 0 then
    roundNearest (f64Sign a ^^ f64Sign b) (f64Significand a) (f64Significand b) (f64Scale a - f64Scale b)
  else Config.fdivSpecial a b

/-- The real (rational) number a finite binary64 value stands for. -/
def f64Val (x : F64) : ℚ :=
  (if f64Sign x then -1 else 1) * (f64Significand x : ℚ) * (2 : ℚ) ^ f64Scale x

end Sys2Proof.Machine
end

