-- ==== Sys2Proof/Machine/Operands.lean ====
section
/-! DEFINITION. The operand formats (30_encoding.md R54 to R59) and what each decoder makes of a raw field
(41_integer_decoders.md, 42_compact_float.md, 43_scaled_fields.md). The numeric literals of the source stand here under
their own names (93_implementation_defined.md U7). -/

namespace Sys2Proof.Machine

/-- The exponent bias of both compact formats (30_encoding.md R57, R58). -/
def exponentBias : Int := 15

/-- The divisor of the UFLT16 mantissa (42_compact_float.md R79). -/
def uflt16Divisor : F64 := i2f 4096

/-- The divisor of the SFLT16 mantissa (42_compact_float.md R80). -/
def sflt16Divisor : F64 := i2f 2048

/-- The divisor of a voltage (43_scaled_fields.md R88). -/
def voltageDivisor : F64 := i2f 4096

/-- The divisor of a temperature (43_scaled_fields.md R89). -/
def temperatureDivisor : F64 := i2f 200

/-- The factor of a differential pressure (43_scaled_fields.md R90). -/
def pressureFactor : F64 := i2f 32768

/-- The divisor of a differential pressure (43_scaled_fields.md R90). -/
def pressureDivisor : F64 := i2f 60

/-- `-0` (00_scope.md R11). -/
def negativeZero : F64 := 0x8000000000000000#64

/-- Format U16: big-endian, the byte at the lower offset is the more significant (20_memory.md R38, 30_encoding.md R55). -/
def rawOfBytes (high low : Byte) : Raw := high ++ low

/-- Format I16: two's complement (30_encoding.md R56, 41_integer_decoders.md R74). -/
def i16OfRaw (raw : Raw) : Int :=
  if raw.getLsbD 15 then (raw.toNat : Int) - 65536 else raw.toNat

/-- The exponent field of UFLT16, bits 15..12 (30_encoding.md R57). -/
def uflt16Exponent (raw : Raw) : Nat := raw.toNat / 2 ^ 12

/-- The mantissa field of UFLT16, bits 11..0 (30_encoding.md R57). -/
def uflt16Mantissa (raw : Raw) : Nat := raw.toNat % 2 ^ 12

/-- The sign of SFLT16, bit 15 (30_encoding.md R58). -/
def sflt16Sign (raw : Raw) : Bool := raw.getLsbD 15

/-- The exponent field of SFLT16, bits 14..11 (30_encoding.md R58). -/
def sflt16Exponent (raw : Raw) : Nat := raw.toNat / 2 ^ 11 % 2 ^ 4

/-- The mantissa field of SFLT16, bits 10..0 (30_encoding.md R58). -/
def sflt16Mantissa (raw : Raw) : Nat := raw.toNat % 2 ^ 11

/-- DECUFLT16 on a raw field (42_compact_float.md R79). -/
def uflt16OfRaw (raw : Raw) : F64 :=
  fmul (fdiv (i2f (uflt16Mantissa raw)) uflt16Divisor) (pow2 (uflt16Exponent raw - exponentBias))

/-- DECSFLT16 on a raw field, with the source's special case (42_compact_float.md R80). -/
def sflt16OfRaw (raw : Raw) : F64 :=
  if raw = 0x8000#16 then negativeZero
  else
    fmul (fmul (if sflt16Sign raw then i2f (-1) else i2f 1) (fdiv (i2f (sflt16Mantissa raw)) sflt16Divisor))
      (pow2 (sflt16Exponent raw - exponentBias))

/-- DECVOLT on a raw field (43_scaled_fields.md R88). -/
def voltageOfRaw (raw : Raw) : F64 := fdiv (i2f (i16OfRaw raw)) voltageDivisor

/-- DECTEMPC on a raw field: a true division (43_scaled_fields.md R89, R91). -/
def temperatureOfRaw (raw : Raw) : F64 := fdiv (i2f (i16OfRaw raw)) temperatureDivisor

/-- DECDP on a raw field, evaluated left to right (43_scaled_fields.md R90, R93). -/
def pressureOfRaw (raw : Raw) : F64 := fdiv (fmul (sflt16OfRaw raw) pressureFactor) pressureDivisor

end Sys2Proof.Machine
end

