-- ==== Sys2Proof/Machine/Ops.lean ====
section
/-! DEFINITION. The named operations over the ByteSequence and the registers: reading B, the cursor reads, every register
update as one operation, taking OutOfRange (60_exceptions.md R122), the start of a pass (70_reset_and_hazards.md R133) and
RESET (R132). There is no return from the exception: the host's next START is what follows it (60_exceptions.md R124). -/

namespace Sys2Proof.Machine

/-! ### The ByteSequence (20_memory.md R34 to R43) -/

/-- What an offset below LEN that no cell lists holds: the cells list the bytes other than this one (log entry 6). -/
def unlistedByte : Byte := 0x00#8

/-- The byte a list of cells gives an offset. -/
def lookupCell : List Host.Cell → Nat → Byte
  | [], _ => unlistedByte
  | (a, b) :: rest, x => if a = x then b else lookupCell rest x

/-- The cells of a byte list whose first byte is at offset `a`. -/
def cellsFrom (a : Nat) : List Byte → List Host.Cell
  | [] => []
  | b :: rest => if b = unlistedByte then cellsFrom (a + 1) rest else (a, b) :: cellsFrom (a + 1) rest

/-- The cells have offsets strictly rising from `lo`, all below `len`, and list no byte equal to `unlistedByte`. -/
def cellsOk (lo len : Nat) : List Host.Cell → Bool
  | [] => true
  | (a, b) :: rest => decide (lo ≤ a) && decide (a < len) && decide (b ≠ unlistedByte) && cellsOk (a + 1) len rest

/-- The canonical form: equal byte sequences are equal data (log entry 6). -/
def Memory.wf (m : Memory) : Bool := cellsOk 0 m.len m.cells

/-- The ByteSequence that holds these bytes, offset 0 first (10_state.md R13). -/
def Memory.ofBytes (bytes : List Byte) : Memory := ⟨bytes.length, cellsFrom 0 bytes⟩

/-- `B[a]`, meaningful for `a < LEN` (00_scope.md R10). -/
def Memory.byte (m : Memory) (a : Nat) : Byte := lookupCell m.cells a

/-- `MemRead(a, 1)`; `none` is OutOfRange (20_memory.md R36, R42). -/
def Memory.read8 (m : Memory) (a : Nat) : Option Byte :=
  if a + 1 ≤ m.len then some (m.byte a) else none

/-- `MemRead(a, 2)`, checked once as a whole; `none` is OutOfRange (20_memory.md R38, R42, R43). -/
def Memory.read16 (m : Memory) (a : Nat) : Option Raw :=
  if a + 2 ≤ m.len then some (rawOfBytes (m.byte a) (m.byte (a + 1))) else none

/-! ### Register updates -/

/-- The Cursor moves past n bytes (10_state.md R17). -/
def State.advance (s : State) (n : Nat) : State := { s with off := s.off + n }

/-- PHASE is written. -/
def State.enter (s : State) (p : Phase) : State := { s with phase := p }

/-- Step 3 of DECODE: `OFF <- 1` (44_message_decoder.md R97). -/
def State.initCursor (s : State) : State := { s with off := 1 }

/-- Step 4 of DECODE: `FLAGS <- v`, all eight bits (10_state.md R18). -/
def State.latchFlags (s : State) (v : Byte) : State := { s with flags := v }

/-- The pass ends with RESULT = OK (44_message_decoder.md R106). -/
def State.finishOk (s : State) : State := { s with result := .ok, phase := .done }

/-- The pass ends with RESULT = NOT_APPLICABLE (44_message_decoder.md R110, 60_exceptions.md R117). -/
def State.finishNotApplicable (s : State) : State := { s with result := .notApplicable, phase := .done }

/-- A primitive command ends with its value (44_message_decoder.md R112). -/
def State.finishValue (s : State) (v : Value) : State := { s with val := some v, result := .ok, phase := .done }

/-- `REC[0] <- x; PRES[0] <- 1` (44_message_decoder.md R100). -/
def State.putVbattery (s : State) (x : F64) : State :=
  { s with record := { s.record with vbattery := some x }, pres := withPresent s.pres .vbattery }

/-- `REC[1] <- x; PRES[1] <- 1` (44_message_decoder.md R101). -/
def State.putVsystem (s : State) (x : F64) : State :=
  { s with record := { s.record with vsystem := some x }, pres := withPresent s.pres .vsystem }

/-- `REC[2] <- b; PRES[2] <- 1` (44_message_decoder.md R102). -/
def State.putBoot (s : State) (b : Byte) : State :=
  { s with record := { s.record with boot := some b }, pres := withPresent s.pres .boot }

/-- `REC[3] <- x; PRES[3] <- 1` (44_message_decoder.md R103). -/
def State.putTemperatureC (s : State) (x : F64) : State :=
  { s with record := { s.record with temperatureC := some x }, pres := withPresent s.pres .temperatureC }

/-- `REC[4] <- x; PRES[4] <- 1` (44_message_decoder.md R104). -/
def State.putDifferentialPressure (s : State) (x : F64) : State :=
  { s with record := { s.record with differentialPressure := some x },
           pres := withPresent s.pres .differentialPressure }

/-- Fault entry, TAKING the exception OutOfRange: RESULT, ERRCODE, PRES and PHASE written, VAL and the slots void, OFF and
FLAGS kept; there is no handler to go to (60_exceptions.md R122). -/
def State.faultEntry (s : State) : State :=
  { s with result := .error, errcode := .outOfRange, pres := 0#5, phase := .done, val := none, record := Record.empty }

/-- Start-of-pass initialisation, with the pass's first offset and phase (70_reset_and_hazards.md R133). -/
def State.beginPass (s : State) (firstOff : Nat) (firstPhase : Phase) : State :=
  { s with result := .none, errcode := .none, pres := 0#5, flags := 0x00#8, record := Record.empty, val := none,
           off := firstOff, phase := firstPhase }

/-- RESET: every register at its reset value, the inputs untouched (70_reset_and_hazards.md R132). -/
def State.resetRegisters (s : State) : State :=
  { s with result := .none, errcode := .none, pres := 0#5, flags := 0x00#8, record := Record.empty, val := none,
           off := 0, phase := .idle }

/-- The host sets the inputs (10_state.md R32). -/
def State.setInputs (s : State) (bytes : List Byte) (portValid : Bool) (port : Nat) (cmd : BitVec 4)
    (offInit : Nat) : State :=
  { s with seq := Memory.ofBytes bytes, portValid := portValid, port := port, cmd := cmd, offInit := offInit }

/-- What the host does at the coming steps becomes this. -/
def State.withHost (s : State) (moves : List HostMove) : State := { s with host := moves }

/-! ### The Cursor (40_cursor_reads.md) -/

/-- READU8 of the Cursor: the byte at OFF and the state with OFF advanced by 1; `none` is OutOfRange (R69, R71). -/
def State.readU8 (s : State) : Option (Byte × State) := (s.seq.read8 s.off).map fun v => (v, s.advance 1)

/-- READU16 of the Cursor: the big-endian two bytes at OFF and the state with OFF advanced by 2; `none` is OutOfRange
(R70, R71). -/
def State.readU16 (s : State) : Option (Raw × State) := (s.seq.read16 s.off).map fun v => (v, s.advance 2)

/-! ### Shapes of operation -/

/-- A primitive command of width 1 (44_message_decoder.md R110, row PRIM). -/
def primitive8 (value : Byte → Value) (s : State) : State :=
  match s.readU8 with
  | none => s.faultEntry
  | some (v, t) => t.finishValue (value v)

/-- A primitive command of width 2 (44_message_decoder.md R110, row PRIM). -/
def primitive16 (value : Raw → Value) (s : State) : State :=
  match s.readU16 with
  | none => s.faultEntry
  | some (raw, t) => t.finishValue (value raw)

/-- `next(Fi)`: the phase of the next slot; after slot 4 the pass ends with RESULT = OK (44_message_decoder.md R110). -/
def State.nextField (s : State) : Slot → State
  | .vbattery => s.enter (.field .vsystem)
  | .vsystem => s.enter (.field .boot)
  | .boot => s.enter (.field .temperatureC)
  | .temperatureC => s.enter (.field .differentialPressure)
  | .differentialPressure => s.finishOk

/-- A field-select operation of width 1 (44_message_decoder.md R110, row Fi). -/
def select8 (i : Slot) (put : State → Byte → State) (s : State) : State :=
  match s.readU8 with
  | none => s.faultEntry
  | some (v, t) => (put t v).nextField i

/-- A field-select operation of width 2 (44_message_decoder.md R110, row Fi). -/
def select16 (i : Slot) (put : State → Raw → State) (s : State) : State :=
  match s.readU16 with
  | none => s.faultEntry
  | some (raw, t) => (put t raw).nextField i

end Sys2Proof.Machine
end

