-- ==== Sys2Proof/Machine/CompactFloat.lean ====
section
/-! DEFINITION. The meanings of DECUFLT16 and DECSFLT16 (42_compact_float.md R79, R80). -/

namespace Sys2Proof.Machine

/-- DECUFLT16 (42_compact_float.md R79). -/
def execDecuflt16 (s : State) : Host.Outcome State Fault Refusal :=
  .next (primitive16 (fun raw => .float (uflt16OfRaw raw)) s)

/-- DECSFLT16 (42_compact_float.md R80). -/
def execDecsflt16 (s : State) : Host.Outcome State Fault Refusal :=
  .next (primitive16 (fun raw => .float (sflt16OfRaw raw)) s)

end Sys2Proof.Machine
end

