-- ==== Sys2Proof/Machine/CursorReads.lean ====
section
/-! DEFINITION. The meanings of READU8 and READU16 (40_cursor_reads.md R69, R70, run alone as 44_message_decoder.md
R112 says). -/

namespace Sys2Proof.Machine

/-- READU8 (40_cursor_reads.md R69): the byte, zero-extended. -/
def execReadu8 (s : State) : Host.Outcome State Fault Refusal :=
  .next (primitive8 (fun v => .unsigned v.toNat) s)

/-- READU16 (40_cursor_reads.md R70): the big-endian 16-bit value, zero-extended. -/
def execReadu16 (s : State) : Host.Outcome State Fault Refusal :=
  .next (primitive16 (fun raw => .unsigned raw.toNat) s)

end Sys2Proof.Machine
end

