-- ==== Sys2Proof/Machine/FieldSelect.lean ====
section
/-! DEFINITION. The five field-select operations (44_message_decoder.md R100 to R104), each as the row Fi of R110: the slot's
decoder at the cursor, the slot and its presence bit written, the next phase; or fault entry. -/

namespace Sys2Proof.Machine

/-- SEL.VBAT (44_message_decoder.md R100). -/
def selectVbat (s : State) : State := select16 .vbattery (fun t raw => t.putVbattery (voltageOfRaw raw)) s

/-- SEL.VSYS (44_message_decoder.md R101). -/
def selectVsys (s : State) : State := select16 .vsystem (fun t raw => t.putVsystem (voltageOfRaw raw)) s

/-- SEL.BOOT (44_message_decoder.md R102): the raw byte, unscaled. -/
def selectBoot (s : State) : State := select8 .boot (fun t v => t.putBoot v) s

/-- SEL.TEMPC (44_message_decoder.md R103). -/
def selectTempc (s : State) : State :=
  select16 .temperatureC (fun t raw => t.putTemperatureC (temperatureOfRaw raw)) s

/-- SEL.DP (44_message_decoder.md R104). -/
def selectDp (s : State) : State :=
  select16 .differentialPressure (fun t raw => t.putDifferentialPressure (pressureOfRaw raw)) s

/-- The meaning of SEL.VBAT. -/
def execSelVbat (s : State) : Host.Outcome State Fault Refusal := .next (selectVbat s)

/-- The meaning of SEL.VSYS. -/
def execSelVsys (s : State) : Host.Outcome State Fault Refusal := .next (selectVsys s)

/-- The meaning of SEL.BOOT. -/
def execSelBoot (s : State) : Host.Outcome State Fault Refusal := .next (selectBoot s)

/-- The meaning of SEL.TEMPC. -/
def execSelTempc (s : State) : Host.Outcome State Fault Refusal := .next (selectTempc s)

/-- The meaning of SEL.DP. -/
def execSelDp (s : State) : Host.Outcome State Fault Refusal := .next (selectDp s)

end Sys2Proof.Machine
end

