-- ==== Sys2Proof/Machine/IntegerDecoders.lean ====
section
/-! DEFINITION. The meanings of DECU16 and DECI16 (41_integer_decoders.md R73, R74). -/

namespace Sys2Proof.Machine

/-- DECU16 (41_integer_decoders.md R73): the raw value. -/
def execDecu16 (s : State) : Host.Outcome State Fault Refusal :=
  .next (primitive16 (fun raw => .unsigned raw.toNat) s)

/-- DECI16 (41_integer_decoders.md R74): the raw value as two's complement. -/
def execDeci16 (s : State) : Host.Outcome State Fault Refusal :=
  .next (primitive16 (fun raw => .signed (i16OfRaw raw)) s)

end Sys2Proof.Machine
end

