-- ==== Sys2Proof/Machine/MessageDecoder.lean ====
section
/-! DEFINITION. The message decoder: the phases ENV, BMP and F0 to F4 as single steps (44_message_decoder.md R110), and the
meaning of DECODE, the whole pass from step 1 to its end (R94, R109). That the two agree is R111, an obligation. -/

namespace Sys2Proof.Machine

/-- The one port this block serves, `PORTNUM` (00_scope.md R8). -/
def servedPort : Nat := 1

/-- Step 1, the port check: an absent port passes (44_message_decoder.md R95). -/
def portAccepted (s : State) : Bool := !s.portValid || s.port == servedPort

/-- Phase ENV, steps 1 to 3 (44_message_decoder.md R95 to R97). -/
def envelopePhase (s : State) : State :=
  if portAccepted s then
    if s.seq.len = 0 then s.finishNotApplicable
    else
      match decodeEnv (s.seq.byte 0) with
      | .error _ => s.finishNotApplicable
      | .ok _ => s.initCursor.enter .bmp
  else s.finishNotApplicable

/-- Phase BMP, step 4 (44_message_decoder.md R98). -/
def bitmapPhase (s : State) : State :=
  match s.readU8 with
  | none => s.faultEntry
  | some (v, t) => (t.latchFlags v).enter (.field .vbattery)

/-- The field-select operation of a slot, as a function of the state. -/
def selectField (i : Slot) (s : State) : State :=
  match i with
  | .vbattery => selectVbat s
  | .vsystem => selectVsys s
  | .boot => selectBoot s
  | .temperatureC => selectTempc s
  | .differentialPressure => selectDp s

/-- Phase Fi, step 5 for one bit: the slot's operation where the bit is set, nothing where it is clear
(44_message_decoder.md R99). -/
def fieldPhase (i : Slot) (s : State) : State :=
  match decodeSel i s.flags with
  | .ok _ => selectField i s
  | .error _ => s.nextField i

/-- Step 5 for the slots of a list in turn; a pass that has ended goes no further (44_message_decoder.md R105). -/
def fieldPhases : List Slot → State → State
  | [], s => s
  | i :: rest, s =>
    let t := fieldPhase i s
    if t.phase = .done then t else fieldPhases rest t

/-- The whole pass from step 1 on (44_message_decoder.md R109). -/
def messagePass (s : State) : State :=
  let e := envelopePhase s
  if e.phase = .done then e
  else
    let b := bitmapPhase e
    if b.phase = .done then b else fieldPhases Slot.all b

/-- DECODE (44_message_decoder.md R94, R109). The start-of-pass initialisation is START's (70_reset_and_hazards.md R133). -/
def execDecode (s : State) : Host.Outcome State Fault Refusal := .next (messagePass s)

end Sys2Proof.Machine
end

