-- ==== Sys2Proof/Machine/ScaledFields.lean ====
section
/-! DEFINITION. The meanings of DECDP, DECVOLT and DECTEMPC (43_scaled_fields.md R90, R88, R89). -/

namespace Sys2Proof.Machine

/-- DECDP (43_scaled_fields.md R90). -/
def execDecdp (s : State) : Host.Outcome State Fault Refusal :=
  .next (primitive16 (fun raw => .float (pressureOfRaw raw)) s)

/-- DECVOLT (43_scaled_fields.md R88). -/
def execDecvolt (s : State) : Host.Outcome State Fault Refusal :=
  .next (primitive16 (fun raw => .float (voltageOfRaw raw)) s)

/-- DECTEMPC (43_scaled_fields.md R89). -/
def execDectempc (s : State) : Host.Outcome State Fault Refusal :=
  .next (primitive16 (fun raw => .float (temperatureOfRaw raw)) s)

end Sys2Proof.Machine
end

