-- ==== Sys2Proof/Machine/Dispatch.lean ====
section
/-! DEFINITION. One arm per operation of the opcode table (30_encoding.md R60). -/

namespace Sys2Proof.Machine

def exec (i : Instr) (s : State) : Host.Outcome State Fault Refusal :=
  match i with
  | .decode => Sys2Proof.Machine.execDecode s
  | .selVbat => Sys2Proof.Machine.execSelVbat s
  | .selVsys => Sys2Proof.Machine.execSelVsys s
  | .selBoot => Sys2Proof.Machine.execSelBoot s
  | .selTempc => Sys2Proof.Machine.execSelTempc s
  | .selDp => Sys2Proof.Machine.execSelDp s
  | .readu8 => Sys2Proof.Machine.execReadu8 s
  | .readu16 => Sys2Proof.Machine.execReadu16 s
  | .decu16 => Sys2Proof.Machine.execDecu16 s
  | .deci16 => Sys2Proof.Machine.execDeci16 s
  | .decuflt16 => Sys2Proof.Machine.execDecuflt16 s
  | .decsflt16 => Sys2Proof.Machine.execDecsflt16 s
  | .decdp => Sys2Proof.Machine.execDecdp s
  | .decvolt => Sys2Proof.Machine.execDecvolt s
  | .dectempc => Sys2Proof.Machine.execDectempc s

end Sys2Proof.Machine
end

