-- ==== Sys2Proof/Machine/Sequencer.lean ====
section
/-! DEFINITION. What one step does: the host's move of that step, then the row of 44_message_decoder.md R110 that the phase
selects. Also the placing of a table word where the next step runs it. -/

namespace Sys2Proof.Machine

/-- START in IDLE or DONE: the pass of the sampled command begins; a reserved command changes nothing (10_state.md R29,
30_encoding.md R63, 44_message_decoder.md R110). -/
def acceptStart (s : State) : State :=
  match decodeCmd s.cmd with
  | .error _ => s
  | .ok .decode => s.beginPass 0 .env
  | .ok _ => s.beginPass s.offInit .prim

/-- Phase PRIM: the command's operation is executed. CMD 0x0 and the reserved codes name no primitive command, and START
enters PRIM for none of them (44_message_decoder.md R110; log entry 12). -/
def primPhase (s : State) : Host.Outcome State Fault Refusal :=
  match decodeCmd s.cmd with
  | .error _ => .fault (.noPrimitiveCommand s.cmd)
  | .ok .decode => .fault (.noPrimitiveCommand s.cmd)
  | .ok i => exec i s

/-- One step of the sequencer without an event from the host: the row of the phase (44_message_decoder.md R110). -/
def phaseStep (s : State) : Host.Outcome State Fault Refusal :=
  match s.phase with
  | .idle => .next s
  | .done => .next s
  | .env => .next (envelopePhase s)
  | .bmp => .next (bitmapPhase s)
  | .field i =>
    match decodeSel i s.flags with
    | .ok instr => exec instr s
    | .error _ => .next (s.nextField i)
  | .prim => primPhase s

/-- One step with the host's move: RESET takes effect in any phase, START while BUSY is ignored, the inputs change only in
IDLE or DONE (10_state.md R29, R32; 93_implementation_defined.md U8). -/
def hostStep (s : State) : HostMove → Host.Outcome State Fault Refusal
  | .wait => phaseStep s
  | .start => if s.phase.busy then phaseStep s else .next (acceptStart s)
  | .reset => .next s.resetRegisters
  | .supply bytes portValid port cmd offInit =>
    if s.phase.busy then .refused .inputsChangedWhileBusy
    else .next (s.setInputs bytes portValid port cmd offInit)

/-- One step of the machine: the head of `host` is what the host does at it (log entry 2). -/
def machineStep (s : State) : Host.Outcome State Fault Refusal :=
  match s.host with
  | [] => phaseStep s
  | move :: rest => hostStep (s.withHost rest) move

/-- The longest message a pass examines, `MAXMSG` (30_encoding.md R53). -/
def maxMessage : Nat := 11

/-- A payload of the longest length: the given first bytes, then zeros. -/
def paddedPayload (first : List Byte) : List Byte :=
  first ++ List.replicate (maxMessage - first.length) 0x00#8

/-- The state in which the next step runs the operation a code word selects, its operand bytes zero (log entry 15). -/
def placeCodeWord (s : State) : CodeWord → State
  | .env header =>
    let payload := paddedPayload [header.extractLsb' 8 8, header.extractLsb' 0 8]
    ((s.setInputs payload false s.port 0#4 s.offInit).withHost []).beginPass 0 .env
  | .sel i flags =>
    let t := (s.setInputs (paddedPayload [formatByte, flags]) false s.port 0#4 s.offInit).withHost []
    (t.beginPass (fieldStart flags i) (.field i)).latchFlags flags
  | .cmd code =>
    if code = 0#4 then
      ((s.setInputs (paddedPayload [formatByte]) false s.port code s.offInit).withHost []).beginPass 0 .env
    else
      ((s.setInputs (paddedPayload []) s.portValid s.port code 0).withHost []).beginPass 0 .prim

/-- `placeCodeWord` of a table word; a word of no format changes nothing. -/
def placeTableWord (s : State) (nbits w : Nat) : State :=
  match tableCodeWord nbits w with
  | none => s
  | some word => placeCodeWord s word

end Sys2Proof.Machine
end

