-- ==== Sys2Proof/Machine/Step.lean ====
section
/-! DEFINITION. The step, and the placing of one instruction where the next step runs it. -/

namespace Sys2Proof.Machine

def step (s : State) : Host.Outcome State Fault Refusal := machineStep s

def State.withFetchWord (s : State) (nbits w : Nat) : State := placeTableWord s nbits w

end Sys2Proof.Machine
end

