-- ==== Sys2Proof/Machine/HostView.lean ====
section
/-! DEFINITION. What the host reads: the register encodings (10_state.md R23, R24, R28; 92_eei_decisions.md D25), the
access rights of 10_state.md R32, and the outcome of a pass (70_reset_and_hazards.md R137). -/

namespace Sys2Proof.Machine

/-- The 4-bit encoding of PHASE (10_state.md R28). -/
def Phase.code : Phase → BitVec 4
  | .idle => 0#4
  | .env => 1#4
  | .bmp => 2#4
  | .field i => BitVec.ofNat 4 (3 + i.index)
  | .done => 8#4
  | .prim => 9#4

/-- The 2-bit encoding of RESULT (10_state.md R23). -/
def ResultTag.code : ResultTag → BitVec 2
  | .none => 0#2
  | .notApplicable => 1#2
  | .ok => 2#2
  | .error => 3#2

/-- The encoding of ERRCODE (10_state.md R24). -/
def ErrCode.code : ErrCode → BitVec 1
  | .none => 0#1
  | .outOfRange => 1#1

/-- The 64 wires of VAL when it holds a value (10_state.md R27, 92_eei_decisions.md D25). -/
def Value.wires : Value → BitVec 64
  | .unsigned n => BitVec.ofNat 64 n
  | .signed z => BitVec.ofInt 64 z
  | .float x => x

/-- Whether a slot holds a value. -/
def Record.has (r : Record) : Slot → Bool
  | .vbattery => r.vbattery.isSome
  | .vsystem => r.vsystem.isSome
  | .boot => r.boot.isSome
  | .temperatureC => r.temperatureC.isSome
  | .differentialPressure => r.differentialPressure.isSome

/-- RESULT as the host may read it: only while PHASE = DONE (10_state.md R32). -/
def hostResult (s : State) : Option ResultTag := if s.phase = .done then some s.result else none

/-- ERRCODE as the host may read it: only while PHASE = DONE (10_state.md R32). -/
def hostErrcode (s : State) : Option ErrCode := if s.phase = .done then some s.errcode else none

/-- VAL as the host may read it: only at DONE with RESULT = OK, and only where it holds a value (10_state.md R32). -/
def hostVal (s : State) : Option Value := if s.phase = .done ∧ s.result = .ok then s.val else none

/-- The record as the host may read it: only at DONE with RESULT = OK after a DECODE, which leaves VAL without a value
(10_state.md R27, R32). -/
def hostRecord (s : State) : Option Record :=
  if s.phase = .done ∧ s.result = .ok ∧ s.val = none then some s.record else none

/-- The result of a pass (00_scope.md R12). -/
inductive PassResult where
  | notApplicable
  | decoded (record : Record)
  | value (v : Value) (off : Nat)
  | outOfRange
  deriving DecidableEq, Repr

/-- The outcome read at DONE; `none` while no pass has ended (70_reset_and_hazards.md R137). -/
def passOutcome (s : State) : Option PassResult :=
  match s.phase, s.result, s.val with
  | .done, .notApplicable, _ => some .notApplicable
  | .done, .ok, none => some (.decoded s.record)
  | .done, .ok, some v => some (.value v s.off)
  | .done, .error, _ => some .outOfRange
  | _, _, _ => none

end Sys2Proof.Machine
end

