-- ==== Sys2Proof/Safety.lean ====
section
/-! DEFINITION. The terms claims are stated in: fields of a message read as plain numbers, what a binary64 value being
nearest to a number means, the end states the spec gives, DECODE as one function of its inputs (44_message_decoder.md
R109, R111), and the invariant of the machine. Nothing of the machine uses this file. -/

namespace Sys2Proof.Machine

/-! ### Numbers -/

/-- The U16 value at an offset, `B[a] * 256 + B[a+1]` (30_encoding.md R55). -/
def rawAt (m : Memory) (a : Nat) : Nat := (m.byte a).toNat * 256 + (m.byte (a + 1)).toNat

/-- The I16 value at an offset (30_encoding.md R56). -/
def signedAt (m : Memory) (a : Nat) : Int :=
  if rawAt m a < 32768 then (rawAt m a : Int) else (rawAt m a : Int) - 65536

/-- The U16 value at an offset as a 16-bit word. -/
def wordAt (m : Memory) (a : Nat) : Raw := BitVec.ofNat 16 (rawAt m a)

/-- `x` is `RN(q)`: finite, no finite value is nearer to q, and of two equally near its last significand bit is even
(00_scope.md R11). -/
def IsNearest (x : F64) (q : ℚ) : Prop :=
  f64Finite x = true ∧
    ∀ y : F64, f64Finite y = true →
      |f64Val x - q| ≤ |f64Val y - q| ∧
        (f64Val y ≠ f64Val x → |f64Val y - q| = |f64Val x - q| → f64Fraction x % 2 = 0)

/-- A zero or a normal number: no infinity, no NaN, no subnormal (42_compact_float.md R84). -/
def ZeroOrNormal (x : F64) : Prop :=
  f64Exponent x ≠ 2047 ∧ (f64Exponent x = 0 → f64Fraction x = 0)

/-! ### End states -/

/-- The width of the read a primitive command makes (30_encoding.md R60); none for the other operations. -/
def primitiveWidth : Instr → Option Nat
  | .readu8 => some 1
  | .readu16 => some 2
  | .decu16 => some 2
  | .deci16 => some 2
  | .decuflt16 => some 2
  | .decsflt16 => some 2
  | .decdp => some 2
  | .decvolt => some 2
  | .dectempc => some 2
  | .decode => none
  | .selVbat => none
  | .selVsys => none
  | .selBoot => none
  | .selTempc => none
  | .selDp => none

/-- A primitive command of width n ended with a value (44_message_decoder.md R110, R112). -/
def afterValue (s : State) (n : Nat) (v : Value) : State :=
  { s with off := s.off + n, val := some v, result := .ok, phase := .done }

/-- A read raised OutOfRange (60_exceptions.md R122). -/
def afterOutOfRange (s : State) : State :=
  { s with result := .error, errcode := .outOfRange, pres := 0#5, phase := .done, val := none,
           record := ⟨none, none, none, none, none⟩ }

/-! ### DECODE as a function of its inputs (44_message_decoder.md R109) -/

/-- The envelope checks pass: an absent port or port 1, a non-empty sequence, byte 0 equal to 0x1F
(44_message_decoder.md R95, R96). -/
def envelopeMatches (s : State) : Bool :=
  (!s.portValid || s.port == 1) && (s.seq.len != 0 && s.seq.byte 0 == 0x1F#8)

/-- The field of slot i ends above LEN. -/
def fieldMissing (m : Memory) (flags : Byte) (i : Slot) : Bool :=
  i.selected flags && decide (m.len < fieldStart flags i + fieldWidth i)

/-- The first selected slot, in bit order, whose field does not fit (44_message_decoder.md R105). -/
def firstMissing (m : Memory) (flags : Byte) : Option Slot := Slot.all.find? (fieldMissing m flags)

/-- The record of a message whose selected fields all fit: the slot's decoder at `start_i` (44_message_decoder.md R109). -/
def messageRecord (m : Memory) (flags : Byte) : Record where
  vbattery :=
    if Slot.vbattery.selected flags then some (voltageOfRaw (wordAt m (fieldStart flags .vbattery))) else none
  vsystem :=
    if Slot.vsystem.selected flags then some (voltageOfRaw (wordAt m (fieldStart flags .vsystem))) else none
  boot := if Slot.boot.selected flags then some (m.byte (fieldStart flags .boot)) else none
  temperatureC :=
    if Slot.temperatureC.selected flags then
      some (temperatureOfRaw (wordAt m (fieldStart flags .temperatureC)))
    else none
  differentialPressure :=
    if Slot.differentialPressure.selected flags then
      some (pressureOfRaw (wordAt m (fieldStart flags .differentialPressure)))
    else none

/-- The state in which a DECODE pass ends, from the state START left it in (44_message_decoder.md R109, R114). -/
def decodeEnd (s : State) : State :=
  let flags := s.seq.byte 1
  if envelopeMatches s then
    if s.seq.len < 2 then afterOutOfRange { s with off := 1 }
    else
      match firstMissing s.seq flags with
      | some i => afterOutOfRange { s with flags := flags, off := fieldStart flags i }
      | none =>
        { s with flags := flags, off := messageLength flags, record := messageRecord s.seq flags,
                 pres := flags.setWidth 5, result := .ok, phase := .done }
  else { s with result := .notApplicable, phase := .done }

/-- The number of steps from START until DONE, START included (44_message_decoder.md R111). -/
def decodeSteps (s : State) : Nat :=
  if envelopeMatches s then
    if s.seq.len < 2 then 3
    else
      match firstMissing s.seq (s.seq.byte 1) with
      | some i => 4 + i.index
      | none => 8
  else 2

/-- The state right after an accepted START (10_state.md R31, START column). -/
def afterStart (s : State) : State :=
  { s with result := .none, errcode := .none, pres := 0#5, flags := 0#8, val := none,
           record := ⟨none, none, none, none, none⟩,
           off := if s.cmd = 0#4 then 0 else s.offInit,
           phase := if s.cmd = 0#4 then .env else .prim }

/-- IDLE or DONE: START is accepted and the inputs are the host's (10_state.md R29, R32). -/
def betweenPasses (s : State) : Prop := s.phase = .idle ∨ s.phase = .done

/-! ### The invariant -/

/-- PRES and the slots agree: a slot holds a value exactly where its presence bit is 1 (10_state.md R21, R33). -/
def slotsMatch (s : State) : Prop := ∀ i : Slot, s.record.has i = s.pres.getLsbD i.index

/-- PRES during step 5: the bits of FLAGS below slot i (44_message_decoder.md R110). -/
def flagsBelow (flags : Byte) (i : Slot) : BitVec 5 := BitVec.ofNat 5 (flags.toNat % 2 ^ i.index)

/-- What holds in each phase (10_state.md R16 to R24, 44_message_decoder.md R110). -/
def phaseInv (s : State) : Prop :=
  match s.phase with
  | .idle => s.off = 0 ∧ s.flags = 0#8 ∧ s.pres = 0#5 ∧ s.val = none
  | .env => s.cmd = 0#4 ∧ s.off = 0 ∧ s.flags = 0#8 ∧ s.pres = 0#5 ∧ s.val = none
  | .bmp =>
    s.cmd = 0#4 ∧ s.off = 1 ∧ s.flags = 0#8 ∧ s.pres = 0#5 ∧ s.val = none ∧ envelopeMatches s = true
  | .field i =>
    s.cmd = 0#4 ∧ s.off = fieldStart s.flags i ∧ s.off ≤ s.seq.len ∧ s.flags = s.seq.byte 1 ∧
      s.pres = flagsBelow s.flags i ∧ s.val = none ∧ envelopeMatches s = true
  | .prim =>
    0 < s.cmd.toNat ∧ s.cmd.toNat < 10 ∧ s.off = s.offInit ∧ s.flags = 0#8 ∧ s.pres = 0#5 ∧ s.val = none
  | .done =>
    match s.result with
    | .none => False
    | .notApplicable => s.off = 0 ∧ s.flags = 0#8 ∧ s.pres = 0#5 ∧ s.val = none
    | .error => s.pres = 0#5 ∧ s.val = none
    | .ok =>
      (s.val = none ∧ s.pres = s.flags.setWidth 5 ∧ s.off = messageLength s.flags) ∨
        (s.val.isSome = true ∧ s.pres = 0#5 ∧ s.flags = 0#8)

/-- The invariant of the machine: B in canonical form, PRES and REC in agreement, ERRCODE set exactly with ERROR
(10_state.md R24), RESULT other than NONE exactly at DONE (R23, 92_eei_decisions.md D29), and the phase's own part. -/
def Inv (s : State) : Prop :=
  s.seq.wf = true ∧ slotsMatch s ∧ (s.errcode = .outOfRange ↔ s.result = .error) ∧
    (s.result ≠ .none ↔ s.phase = .done) ∧ phaseInv s

end Sys2Proof.Machine
end

