-- ==== Sys2Proof/Certificates/Slice0/Obligations.lean ====
section
/-! DEFINITION. The statements for the provers, each with the rule of spec/ it formalises. Terms used: Safety.lean. -/

open Sys2Proof Sys2Proof.Machine

/-! ### Reset, START and the host (10_state.md, 70_reset_and_hazards.md) -/

/-- R132: RESET gives every register its reset value from any phase, leaves the inputs alone, and the core then executes
nothing until START. The values are the spec's own choice (92_eei_decisions.md D15). -/
def Obligations.ResetEventRestoresEveryRegister : Prop :=
  ∀ (s : State) (rest : List HostMove), s.host = .reset :: rest →
    ∃ t, step s = .next t ∧ t.phase = .idle ∧ t.result = .none ∧ t.errcode = .none ∧ t.pres = 0#5 ∧
      t.flags = 0x00#8 ∧ t.off = 0 ∧ t.record = ⟨none, none, none, none, none⟩ ∧ t.val = none ∧
      t.seq = s.seq ∧ t.portValid = s.portValid ∧ t.port = s.port ∧ t.cmd = s.cmd ∧ t.offInit = s.offInit ∧
      t.host = rest ∧ step { t with host := [] } = .next { t with host := [] }

/-- R31, RESET column: the registers of the machine right after reset. The values are the spec's own choice (92_eei_decisions.md
D15); those of the inputs are the model's (log entry 4) and are not stated. -/
def Obligations.ResetStateHoldsTheResetValues : Prop :=
  State.reset.phase = .idle ∧ State.reset.result = .none ∧ State.reset.errcode = .none ∧
    State.reset.pres = 0b00000#5 ∧ State.reset.record = ⟨none, none, none, none, none⟩ ∧
    State.reset.val = none ∧ State.reset.flags = 0x00#8 ∧ State.reset.off = 0

/-- R133: an accepted START clears every register of the earlier pass and sets OFF and PHASE by the command; the inputs
stay as they are. The particular cleared values are the spec's own choice (92_eei_decisions.md D2). -/
def Obligations.StartBeginsAFreshPass : Prop :=
  ∀ (s : State) (rest : List HostMove), s.host = .start :: rest → betweenPasses s → s.cmd.toNat < 10 →
    step s = .next (afterStart { s with host := rest })

/-- R63 with log entry 8: a START that samples a reserved command code changes nothing. That this is a next state, and not
the absence of a step, is the model's reading. -/
def Obligations.ReservedCommandStartChangesNothing : Prop :=
  ∀ (s : State) (rest : List HostMove), s.host = .start :: rest → betweenPasses s → 10 ≤ s.cmd.toNat →
    step s = .next { s with host := rest }

/-- R29, R139: a START while BUSY is ignored, not queued: the step is the one without it. -/
def Obligations.StartWhileBusyIsIgnored : Prop :=
  ∀ (s : State) (rest : List HostMove), s.phase.busy = true →
    step { s with host := .start :: rest } = step { s with host := .wait :: rest }

/-- R110 (row IDLE or DONE, no START), R124: between passes the core holds every register. -/
def Obligations.CoreWaitsBetweenPasses : Prop :=
  ∀ s : State, betweenPasses s →
    (s.host = [] → step s = .next s) ∧
      ∀ rest, s.host = .wait :: rest → step s = .next { s with host := rest }

/-- R32: in IDLE or DONE the host sets the inputs, and no register of the core changes. The form of the host's move is the
model's (log entry 2). -/
def Obligations.HostSetsInputsBetweenPasses : Prop :=
  ∀ (s : State) (rest : List HostMove) (bytes : List Byte) (portValid : Bool) (port : Nat) (cmd : BitVec 4)
    (offInit : Nat), betweenPasses s → s.host = .supply bytes portValid port cmd offInit :: rest →
    step s = .next { s with seq := Memory.ofBytes bytes, portValid := portValid, port := port, cmd := cmd,
                            offInit := offInit, host := rest }

/-- R138 and 93_implementation_defined.md U8: the model has no step in which the host changes the inputs while BUSY. -/
def Obligations.InputChangeWhileBusyIsRefused : Prop :=
  ∀ (s : State) (rest : List HostMove) (bytes : List Byte) (portValid : Bool) (port : Nat) (cmd : BitVec 4)
    (offInit : Nat), s.phase.busy = true → s.host = .supply bytes portValid port cmd offInit :: rest →
    step s = .refused .inputsChangedWhileBusy

/-! ### The ByteSequence (20_memory.md) -/

/-- R36, R38: of the bytes the host supplied, a one-byte read gives the byte at the offset and a two-byte read gives the
byte at the lower offset times 256 plus the next; a read past the end gives none. -/
def Obligations.SuppliedBytesAreReadBack : Prop :=
  ∀ (bytes : List Byte) (a : Nat),
    (Memory.ofBytes bytes).len = bytes.length ∧ (Memory.ofBytes bytes).read8 a = bytes[a]? ∧
      (∀ high low, bytes[a]? = some high → bytes[a + 1]? = some low →
        ∃ raw, (Memory.ofBytes bytes).read16 a = some raw ∧ raw.toNat = high.toNat * 256 + low.toNat) ∧
      (bytes[a + 1]? = none → (Memory.ofBytes bytes).read16 a = none)

/-- Log entry 6: byte sequences in canonical form that hold the same bytes are the same data. -/
def Obligations.EqualByteSequencesAreEqualData : Prop :=
  ∀ m n : Memory, m.wf = true → n.wf = true → m.len = n.len → (∀ a, a < m.len → m.byte a = n.byte a) → m = n

/-! ### Primitive commands (40 to 43) -/

/-- R69: READU8 in full. The end states are those of R112 and
R122: the wrapper (92_eei_decisions.md D26), OFF kept (D6) and PRES cleared (D7) are the spec's own choices. -/
def Obligations.Readu8ReturnsTheByteAtTheCursor : Prop :=
  ∀ s : State,
    (s.off + 1 ≤ s.seq.len →
      exec .readu8 s = .next (afterValue s 1 (.unsigned (s.seq.byte s.off).toNat))) ∧
      (s.seq.len < s.off + 1 → exec .readu8 s = .next (afterOutOfRange s))

/-- R70: READU16 in full, big-endian at any offset. The end states are those of R112 and
R122: the wrapper (92_eei_decisions.md D26), OFF kept (D6) and PRES cleared (D7) are the spec's own choices. -/
def Obligations.Readu16ReturnsTheBigEndianValue : Prop :=
  ∀ s : State,
    (s.off + 2 ≤ s.seq.len → exec .readu16 s = .next (afterValue s 2 (.unsigned (rawAt s.seq s.off)))) ∧
      (s.seq.len < s.off + 2 → exec .readu16 s = .next (afterOutOfRange s))

/-- R73: DECU16 in full. The end states are those of R112 and
R122: the wrapper (92_eei_decisions.md D26), OFF kept (D6) and PRES cleared (D7) are the spec's own choices. -/
def Obligations.Decu16ReturnsTheRawValue : Prop :=
  ∀ s : State,
    (s.off + 2 ≤ s.seq.len → exec .decu16 s = .next (afterValue s 2 (.unsigned (rawAt s.seq s.off)))) ∧
      (s.seq.len < s.off + 2 → exec .decu16 s = .next (afterOutOfRange s))

/-- R74: DECI16 in full: 65536 is subtracted exactly when the top bit is set. The end states
are those of R112 and R122: the wrapper (92_eei_decisions.md D26), OFF kept (D6) and PRES cleared (D7) are the spec's own
choices. -/
def Obligations.Deci16ReturnsTheSignedValue : Prop :=
  ∀ s : State,
    (s.off + 2 ≤ s.seq.len → exec .deci16 s = .next (afterValue s 2 (.signed (signedAt s.seq s.off)))) ∧
      (s.seq.len < s.off + 2 → exec .deci16 s = .next (afterOutOfRange s))

/-- R75: re-encoding what DECI16 gives reproduces the raw value, and DECI16 is a bijection onto -32768..32767. -/
def Obligations.Deci16RoundTripsAndIsOnto : Prop :=
  (∀ raw : Raw, i16OfRaw raw % 65536 = raw.toNat ∧ -32768 ≤ i16OfRaw raw ∧ i16OfRaw raw ≤ 32767) ∧
    ∀ z : Int, -32768 ≤ z → z ≤ 32767 → ∃ raw : Raw, i16OfRaw raw = z ∧ ∀ other, i16OfRaw other = z → other = raw

/-- R79: DECUFLT16 in full: the value is (m / 4096) * 2^(e - 15) with e = raw[15:12], m = raw[11:0], never negative.
The end states are those of R112 and R122: the wrapper (92_eei_decisions.md D26), OFF kept (D6) and PRES cleared (D7) are
the spec's own choices. -/
def Obligations.Decuflt16ReturnsTheCompactValue : Prop :=
  ∀ s : State,
    (s.off + 2 ≤ s.seq.len →
      exec .decuflt16 s = .next (afterValue s 2 (.float (uflt16OfRaw (wordAt s.seq s.off)))) ∧
        f64Finite (uflt16OfRaw (wordAt s.seq s.off)) = true ∧
        f64Sign (uflt16OfRaw (wordAt s.seq s.off)) = false ∧
        f64Val (uflt16OfRaw (wordAt s.seq s.off)) =
          ((rawAt s.seq s.off % 4096 : Nat) : ℚ) / 4096 * (2 : ℚ) ^ ((rawAt s.seq s.off / 4096 : Nat) - 15 : Int)) ∧
      (s.seq.len < s.off + 2 → exec .decuflt16 s = .next (afterOutOfRange s))

/-- R80: DECSFLT16 in full: 0x8000 gives negative zero; otherwise the value is sign * (m / 2048) * 2^(e - 15) with
e = raw[14:11], m = raw[10:0]. The sign bit of the result is raw[15]; for the zeros other than 0x8000 that is the spec's
own choice (R83, 92_eei_decisions.md D12).
The end states are those of R112 and R122: the wrapper (92_eei_decisions.md D26), OFF kept (D6) and PRES cleared (D7) are
the spec's own choices. -/
def Obligations.Decsflt16ReturnsTheCompactValue : Prop :=
  ∀ s : State,
    (s.off + 2 ≤ s.seq.len →
      exec .decsflt16 s = .next (afterValue s 2 (.float (sflt16OfRaw (wordAt s.seq s.off)))) ∧
        (rawAt s.seq s.off = 0x8000 → sflt16OfRaw (wordAt s.seq s.off) = 0x8000000000000000#64) ∧
        f64Finite (sflt16OfRaw (wordAt s.seq s.off)) = true ∧
        f64Sign (sflt16OfRaw (wordAt s.seq s.off)) = decide (32768 ≤ rawAt s.seq s.off) ∧
        f64Val (sflt16OfRaw (wordAt s.seq s.off)) =
          (if 32768 ≤ rawAt s.seq s.off then -1 else 1) * (((rawAt s.seq s.off % 2048 : Nat) : ℚ) / 2048) *
            (2 : ℚ) ^ ((rawAt s.seq s.off / 2048 % 16 : Nat) - 15 : Int)) ∧
      (s.seq.len < s.off + 2 → exec .decsflt16 s = .next (afterOutOfRange s))

/-- R81: both compact formats decode exactly: m * 2^(e - 27) and (-1)^s * m * 2^(e - 26). -/
def Obligations.CompactFloatsDecodeExactly : Prop :=
  ∀ raw : Raw,
    f64Val (uflt16OfRaw raw) = ((raw.toNat % 4096 : Nat) : ℚ) * (2 : ℚ) ^ ((raw.toNat / 4096 : Nat) - 27 : Int) ∧
      f64Val (sflt16OfRaw raw) =
        (-1) ^ (raw.toNat / 32768) * ((raw.toNat % 2048 : Nat) : ℚ) *
          (2 : ℚ) ^ ((raw.toNat / 2048 % 16 : Nat) - 26 : Int)

/-- R82: the tight ranges of the compact formats, and the least magnitude of a result other than zero. -/
def Obligations.CompactFloatsStayBelowOne : Prop :=
  ∀ raw : Raw,
    0 ≤ f64Val (uflt16OfRaw raw) ∧ f64Val (uflt16OfRaw raw) ≤ 4095 / 4096 ∧
      |f64Val (sflt16OfRaw raw)| ≤ 2047 / 2048 ∧
      (f64Val (uflt16OfRaw raw) ≠ 0 → (2 : ℚ) ^ (-27 : Int) ≤ f64Val (uflt16OfRaw raw)) ∧
      (f64Val (sflt16OfRaw raw) ≠ 0 → (2 : ℚ) ^ (-26 : Int) ≤ |f64Val (sflt16OfRaw raw)|)

/-- R83: zeros and their sign: every UFLT16 with m = 0 is +0; an SFLT16 with m = 0 is +0 or -0 by its sign bit; and no
other raw value gives a zero. The sign of the fifteen zeros 0x8800 to 0xF800 is the spec's own choice
(92_eei_decisions.md D12). -/
def Obligations.CompactFloatZerosHaveTheirSign : Prop :=
  ∀ raw : Raw,
    (uflt16OfRaw raw = 0x0000000000000000#64 ↔ raw.toNat % 4096 = 0) ∧
      (uflt16OfRaw raw ≠ 0x8000000000000000#64) ∧
      (sflt16OfRaw raw = 0x0000000000000000#64 ↔ raw.toNat % 2048 = 0 ∧ raw.toNat < 32768) ∧
      (sflt16OfRaw raw = 0x8000000000000000#64 ↔ raw.toNat % 2048 = 0 ∧ 32768 ≤ raw.toNat)

/-- R84: no decoder gives an infinity, a NaN or a subnormal. -/
def Obligations.DecodersGiveZeroOrNormal : Prop :=
  ∀ raw : Raw,
    ZeroOrNormal (uflt16OfRaw raw) ∧ ZeroOrNormal (sflt16OfRaw raw) ∧ ZeroOrNormal (voltageOfRaw raw) ∧
      ZeroOrNormal (temperatureOfRaw raw) ∧ ZeroOrNormal (pressureOfRaw raw)

/-- R88: DECVOLT in full: the signed value over 4096, exactly, and +0 for 0.
The end states are those of R112 and R122: the wrapper (92_eei_decisions.md D26), OFF kept (D6) and PRES cleared (D7) are
the spec's own choices. -/
def Obligations.DecvoltReturnsTheExactVoltage : Prop :=
  ∀ s : State,
    (s.off + 2 ≤ s.seq.len →
      exec .decvolt s = .next (afterValue s 2 (.float (voltageOfRaw (wordAt s.seq s.off)))) ∧
        f64Finite (voltageOfRaw (wordAt s.seq s.off)) = true ∧
        f64Val (voltageOfRaw (wordAt s.seq s.off)) = (signedAt s.seq s.off : ℚ) / 4096 ∧
        f64Sign (voltageOfRaw (wordAt s.seq s.off)) = decide (signedAt s.seq s.off < 0)) ∧
      (s.seq.len < s.off + 2 → exec .decvolt s = .next (afterOutOfRange s))

/-- R89: DECTEMPC in full: the binary64 value nearest the signed value over 200, and +0 for 0.
The end states are those of R112 and R122: the wrapper (92_eei_decisions.md D26), OFF kept (D6) and PRES cleared (D7) are
the spec's own choices. -/
def Obligations.DectempcReturnsTheNearestTemperature : Prop :=
  ∀ s : State,
    (s.off + 2 ≤ s.seq.len →
      exec .dectempc s = .next (afterValue s 2 (.float (temperatureOfRaw (wordAt s.seq s.off)))) ∧
        IsNearest (temperatureOfRaw (wordAt s.seq s.off)) ((signedAt s.seq s.off : ℚ) / 200) ∧
        f64Sign (temperatureOfRaw (wordAt s.seq s.off)) = decide (signedAt s.seq s.off < 0)) ∧
      (s.seq.len < s.off + 2 → exec .dectempc s = .next (afterOutOfRange s))

/-- R90: DECDP in full: the binary64 value nearest (-1)^s * m * 2^(e - 11) / 60, with the sign of the compact float also
where it is zero. The left-to-right order (R93, 92_eei_decisions.md D13) and the sign of a zero (D12) are the spec's own
choices.
The end states are those of R112 and R122: the wrapper (92_eei_decisions.md D26), OFF kept (D6) and PRES cleared (D7) are
the spec's own choices. -/
def Obligations.DecdpReturnsTheNearestPressure : Prop :=
  ∀ s : State,
    (s.off + 2 ≤ s.seq.len →
      exec .decdp s = .next (afterValue s 2 (.float (pressureOfRaw (wordAt s.seq s.off)))) ∧
        IsNearest (pressureOfRaw (wordAt s.seq s.off))
          ((if 32768 ≤ rawAt s.seq s.off then -1 else 1) * ((rawAt s.seq s.off % 2048 : Nat) : ℚ) *
            (2 : ℚ) ^ ((rawAt s.seq s.off / 2048 % 16 : Nat) - 11 : Int) / 60) ∧
        f64Sign (pressureOfRaw (wordAt s.seq s.off)) = decide (32768 ≤ rawAt s.seq s.off)) ∧
      (s.seq.len < s.off + 2 → exec .decdp s = .next (afterOutOfRange s))

/-- R92: the ranges of the scaled fields; the largest binary64 values are those of 43_scaled_fields.md R89 and R90. -/
def Obligations.ScaledFieldsStayInRange : Prop :=
  ∀ raw : Raw,
    -8 ≤ f64Val (voltageOfRaw raw) ∧ f64Val (voltageOfRaw raw) ≤ 7.999755859375 ∧
      f64Val 0xC0647AE147AE147B#64 ≤ f64Val (temperatureOfRaw raw) ∧
      f64Val (temperatureOfRaw raw) ≤ f64Val 0x40647AB851EB851F#64 ∧
      |f64Val (pressureOfRaw raw)| ≤ f64Val 0x40810EEEEEEEEEEF#64

/-- R11, R78: the model's one rounding is to the nearest binary64 value, ties to even, of any rational number, wherever
the result is finite. What it says of subnormals and of the pattern's fields rests on log entry 9 (PRESUMED, IEEE-754). -/
def Obligations.RoundingIsToNearestTiesToEven : Prop :=
  ∀ (neg : Bool) (n d : Nat) (k : Int), 0 < d → f64Finite (roundNearest neg n d k) = true →
    IsNearest (roundNearest neg n d k) ((if neg then -1 else 1) * ((n : ℚ) / (d : ℚ)) * (2 : ℚ) ^ k)

/-- R112, R122: every primitive command whose read does not fit ends in fault entry: OFF and FLAGS kept, no value.
That OFF is kept is the spec's own choice (92_eei_decisions.md D6), and so is the clearing of PRES (D7). -/
def Obligations.PrimitiveOutOfRangeTakesFaultEntry : Prop :=
  ∀ (i : Instr) (n : Nat) (s : State), primitiveWidth i = some n → s.seq.len < s.off + n →
    exec i s = .next (afterOutOfRange s)

/-! ### Field-select operations (44_message_decoder.md R100 to R104) -/

/-- R100, R101: SEL.VBAT and SEL.VSYS in full.
The next phase is R110's, and that the meaning does not test its own bit of FLAGS is log entry 1 (DESIGN CHOICE); OFF kept
(92_eei_decisions.md D6) and PRES cleared (D7) in fault entry (R122) are the spec's own choices. -/
def Obligations.VoltageSelectsFillTheirSlots : Prop :=
  ∀ s : State,
    (s.off + 2 ≤ s.seq.len →
      f64Val (voltageOfRaw (wordAt s.seq s.off)) = (signedAt s.seq s.off : ℚ) / 4096 ∧
        exec .selVbat s = .next
          { s with off := s.off + 2, pres := s.pres ||| 0b00001#5, phase := .field .vsystem,
                   record := { s.record with vbattery := some (voltageOfRaw (wordAt s.seq s.off)) } } ∧
        exec .selVsys s = .next
          { s with off := s.off + 2, pres := s.pres ||| 0b00010#5, phase := .field .boot,
                   record := { s.record with vsystem := some (voltageOfRaw (wordAt s.seq s.off)) } }) ∧
      (s.seq.len < s.off + 2 →
        exec .selVbat s = .next (afterOutOfRange s) ∧ exec .selVsys s = .next (afterOutOfRange s))

/-- R102: SEL.BOOT in full: the raw byte, one byte wide.
The next phase is R110's, and that the meaning does not test its own bit of FLAGS is log entry 1 (DESIGN CHOICE); OFF kept
(92_eei_decisions.md D6) and PRES cleared (D7) in fault entry (R122) are the spec's own choices. -/
def Obligations.BootSelectCopiesTheByte : Prop :=
  ∀ s : State,
    (s.off + 1 ≤ s.seq.len →
      exec .selBoot s = .next
        { s with off := s.off + 1, pres := s.pres ||| 0b00100#5, phase := .field .temperatureC,
                 record := { s.record with boot := some (s.seq.byte s.off) } }) ∧
      (s.seq.len < s.off + 1 → exec .selBoot s = .next (afterOutOfRange s))

/-- R103: SEL.TEMPC in full.
The next phase is R110's, and that the meaning does not test its own bit of FLAGS is log entry 1 (DESIGN CHOICE); OFF kept
(92_eei_decisions.md D6) and PRES cleared (D7) in fault entry (R122) are the spec's own choices. -/
def Obligations.TemperatureSelectFillsItsSlot : Prop :=
  ∀ s : State,
    (s.off + 2 ≤ s.seq.len →
      IsNearest (temperatureOfRaw (wordAt s.seq s.off)) ((signedAt s.seq s.off : ℚ) / 200) ∧
        exec .selTempc s = .next
          { s with off := s.off + 2, pres := s.pres ||| 0b01000#5, phase := .field .differentialPressure,
                   record := { s.record with temperatureC := some (temperatureOfRaw (wordAt s.seq s.off)) } }) ∧
      (s.seq.len < s.off + 2 → exec .selTempc s = .next (afterOutOfRange s))

/-- R104, with the end of the pass of R106: SEL.DP in full; slot 4 is the last. The order of the
product and the quotient is the spec's own choice (92_eei_decisions.md D13). That the meaning ends the pass whatever its bit
of FLAGS is log entry 1 (DESIGN CHOICE); OFF kept (D6) and PRES cleared (D7) in fault entry (R122) are the spec's own
choices. -/
def Obligations.PressureSelectFillsItsSlotAndEndsThePass : Prop :=
  ∀ s : State,
    (s.off + 2 ≤ s.seq.len →
      IsNearest (pressureOfRaw (wordAt s.seq s.off))
          ((if 32768 ≤ rawAt s.seq s.off then -1 else 1) * ((rawAt s.seq s.off % 2048 : Nat) : ℚ) *
            (2 : ℚ) ^ ((rawAt s.seq s.off / 2048 % 16 : Nat) - 11 : Int) / 60) ∧
        exec .selDp s = .next
          { s with off := s.off + 2, pres := s.pres ||| 0b10000#5, result := .ok, phase := .done,
                   record := { s.record with
                     differentialPressure := some (pressureOfRaw (wordAt s.seq s.off)) } }) ∧
      (s.seq.len < s.off + 2 → exec .selDp s = .next (afterOutOfRange s))

/-! ### DECODE (44_message_decoder.md R94 to R115) -/

/-- R109: from the state START leaves, DECODE answers the state the pure function of its inputs gives: NotApplicable,
OutOfRange with OFF at the first field that does not fit, or the record. That exec of DECODE is the whole pass is log entry 1
(DESIGN CHOICE); OFF (92_eei_decisions.md D6) and PRES (D7) at an error, and that a missing bitmap is OutOfRange (D18), are
the spec's own choices. -/
def Obligations.DecodeIsTheFunctionOfItsInputs : Prop :=
  ∀ s : State, s.record = ⟨none, none, none, none, none⟩ → s.pres = 0#5 → s.val = none →
    exec .decode s = .next (decodeEnd s)

/-- R53: the number of bytes a message needs, its bounds, and that DECODE answers OK exactly when the envelope matches and
LEN reaches it, and ERROR exactly when the envelope matches and LEN does not (2 where the bitmap is missing). -/
def Obligations.DecodeSucceedsExactlyWhenTheMessageFits : Prop :=
  (∀ flags : Byte,
    messageLength flags =
        2 + 2 * (flags.toNat % 2) + 2 * (flags.toNat / 2 % 2) + flags.toNat / 4 % 2 + 2 * (flags.toNat / 8 % 2) +
          2 * (flags.toNat / 16 % 2) ∧
      2 ≤ messageLength flags ∧ messageLength flags ≤ 11) ∧
    messageLength 0x00#8 = 2 ∧ messageLength 0x1F#8 = 11 ∧
    ∀ s : State, ∃ t, exec .decode s = .next t ∧
      (t.result = .ok ↔
        envelopeMatches s = true ∧
          (if s.seq.len = 1 then 2 else messageLength (s.seq.byte 1)) ≤ s.seq.len) ∧
      (t.result = .error ↔
        envelopeMatches s = true ∧
          s.seq.len < (if s.seq.len = 1 then 2 else messageLength (s.seq.byte 1)))

/-- R111, the atomic pass: seven steps from ENV run the whole of DECODE, whatever the registers hold. That exec of
DECODE is the whole pass is log entry 1 (DESIGN CHOICE). -/
def Obligations.SevenStepsFromEnvRunDecode : Prop :=
  ∀ s : State, s.phase = .env → s.host = [] → core.run 7 s = exec .decode s

/-- R111: from START, DECODE reaches DONE after exactly 2, 3, 4 + i or 8 steps, is BUSY at every step before, and ends in
the state the function gives. OFF (92_eei_decisions.md D6) and PRES (D7) at an error, and that a missing bitmap is OutOfRange
(D18), are the spec's own choices. -/
def Obligations.PhaseMachineAgreesWithTheFunction : Prop :=
  ∀ s : State, betweenPasses s → s.cmd = 0#4 → s.host = [.start] →
    core.run (decodeSteps s) s = .next (decodeEnd (afterStart { s with host := [] })) ∧
      ∀ j, 0 < j → j < decodeSteps s → ∃ u, core.run j s = .next u ∧ u.phase.busy = true

/-- R143: every accepted START is followed by DONE, after at least one and at most eight steps; a primitive command takes two
(R142). After the first step the core is BUSY, so a DONE of an earlier pass does not count. -/
def Obligations.EveryAcceptedStartReachesDone : Prop :=
  ∀ s : State, betweenPasses s → s.cmd.toNat < 10 → s.host = [.start] →
    (∃ u, step s = .next u ∧ u.phase.busy = true) ∧
      (∃ k t, 0 < k ∧ k ≤ 8 ∧ core.run k s = .next t ∧ t.phase = .done) ∧
      (s.cmd ≠ 0#4 → ∃ t, core.run 2 s = .next t ∧ t.phase = .done ∧ (t.result = .ok ∨ t.result = .error))

/-- R115: what a pass leaves depends on B, PORT_VALID and PORT alone for DECODE, and on B, OFF_INIT and CMD alone for a
primitive command: two cores that agree in these, whatever else they held, end alike. -/
def Obligations.PassesDependOnTheirInputsAlone : Prop :=
  ∀ s t : State, betweenPasses s → betweenPasses t → s.host = [.start] → t.host = [.start] → s.cmd.toNat < 10 →
    s.seq = t.seq → s.cmd = t.cmd → (s.cmd = 0#4 → s.portValid = t.portValid ∧ s.port = t.port) →
    (s.cmd ≠ 0#4 → s.offInit = t.offInit) →
    ∃ u v, core.run 8 s = .next u ∧ core.run 8 t = .next v ∧ u.phase = .done ∧ v.phase = .done ∧
      passOutcome u = passOutcome v ∧ u.result = v.result ∧ u.errcode = v.errcode ∧ u.record = v.record ∧
      u.pres = v.pres ∧ u.val = v.val ∧ u.off = v.off ∧ u.flags = v.flags

/-- R62: a bitmap decodes exactly as the same bitmap with bits 7..5 otherwise; only FLAGS shows them; `[0x1F, 0xE0]`
decodes to the empty record. -/
def Obligations.ReservedBitmapBitsAreIgnored : Prop :=
  (∀ (s : State) (byte0 flags flags' : Byte) (rest : List Byte), flags.toNat % 32 = flags'.toNat % 32 →
    ∃ t t', exec .decode { s with seq := Memory.ofBytes (byte0 :: flags :: rest) } = .next t ∧
      exec .decode { s with seq := Memory.ofBytes (byte0 :: flags' :: rest) } = .next t' ∧
      { t with seq := s.seq, flags := s.flags } = { t' with seq := s.seq, flags := s.flags }) ∧
    ∀ s : State, (s.portValid = false ∨ s.port = 1) → s.record = ⟨none, none, none, none, none⟩ →
      ∃ t, exec .decode { s with seq := Memory.ofBytes [0x1F#8, 0xE0#8] } = .next t ∧ t.result = .ok ∧
        t.record = ⟨none, none, none, none, none⟩ ∧ t.pres = s.pres ∧ t.flags = 0xE0#8

/-- R66: bytes at or above the message's length have no effect on anything the pass leaves. That no length check is made is
the spec's own choice (92_eei_decisions.md D10). -/
def Obligations.TrailingBytesHaveNoEffect : Prop :=
  ∀ (s : State) (byte0 flags : Byte) (fields extra : List Byte),
    messageLength flags ≤ fields.length + 2 →
    ∃ t t', exec .decode { s with seq := Memory.ofBytes (byte0 :: flags :: fields) } = .next t ∧
      exec .decode { s with seq := Memory.ofBytes (byte0 :: flags :: (fields ++ extra)) } = .next t' ∧
      { t with seq := s.seq } = { t' with seq := s.seq }

/-! ### The step (44_message_decoder.md R110) -/

/-- R110, row PRIM: a step in PRIM is `exec` of the operation the command code decodes to. -/
def Obligations.PrimStepRunsTheCommand : Prop :=
  ∀ (s : State) (i : Instr), s.phase = .prim → decodeCmd s.cmd = .ok i → i ≠ .decode →
    (s.host = [] → step s = exec i s) ∧
      ∀ rest, s.host = .wait :: rest ∨ s.host = .start :: rest → step s = exec i { s with host := rest }

/-- R110, row Fi: a step in the phase of a slot is `exec` of the slot's operation where its bit of FLAGS is set; where it
is clear, only the phase moves on, and after slot 4 the pass ends with OK. The host is silent, waits, or gives a START, which
is ignored; its move is consumed. -/
def Obligations.FieldStepRunsTheSelectedOperation : Prop :=
  ∀ (s : State) (i : Slot), s.phase = .field i →
    (s.host = [] ∨ ∃ rest, s.host = .wait :: rest ∨ s.host = .start :: rest) →
    (∀ instr, decodeSel i s.flags = .ok instr → step s = exec instr { s with host := s.host.tail }) ∧
      (i.selected s.flags = false → step s = .next
        (match i with
        | .vbattery => { s with host := s.host.tail, phase := .field .vsystem }
        | .vsystem => { s with host := s.host.tail, phase := .field .boot }
        | .boot => { s with host := s.host.tail, phase := .field .temperatureC }
        | .temperatureC => { s with host := s.host.tail, phase := .field .differentialPressure }
        | .differentialPressure => { s with host := s.host.tail, result := .ok, phase := .done }))

/-- R110, rows ENV and BMP (R95 to R98): the envelope and bitmap steps of DECODE. The host is silent, waits, or gives a START,
which is ignored; its move is consumed. That a missing bitmap is OutOfRange (92_eei_decisions.md D18), and OFF kept (D6) and
PRES cleared (D7) in fault entry (R122), are the spec's own choices. -/
def Obligations.EnvelopeAndBitmapStepsFollowTheTable : Prop :=
  ∀ s : State, (s.host = [] ∨ ∃ rest, s.host = .wait :: rest ∨ s.host = .start :: rest) →
    (s.phase = .env → step s = .next
      (if envelopeMatches s then { s with host := s.host.tail, off := 1, phase := .bmp }
      else { s with host := s.host.tail, result := .notApplicable, phase := .done })) ∧
    (s.phase = .bmp → step s = .next
      (if s.seq.len < s.off + 1 then afterOutOfRange { s with host := s.host.tail }
      else { s with host := s.host.tail, flags := s.seq.byte s.off, off := s.off + 1, phase := .field .vbattery }))

/-! ### Invariants and whole-machine rules -/

/-- The machine after reset meets the invariant. -/
def Obligations.ResetMeetsTheInvariant : Prop := Inv State.reset

/-- R16, R17, R18, R21, R23, R24, R33: every step keeps the invariant of Safety.lean: OFF at the place the phase says and
not above LEN while fields are read, FLAGS the latched bitmap, PRES the bits decoded so far and equal to FLAGS[4:0] at
OK, PRES and REC in agreement, ERRCODE and RESULT in agreement, B in canonical form. -/
def Obligations.EveryStepKeepsTheInvariant : Prop :=
  ∀ s t : State, Inv s → step s = .next t → Inv t

/-- R143: under the invariant no step is stuck; the one step the model refuses is the host's change of the inputs while
BUSY (93_implementation_defined.md U8). -/
def Obligations.NoStepIsStuck : Prop :=
  ∀ s : State, Inv s →
    (∃ t, step s = .next t) ∨
      (s.phase.busy = true ∧ ∃ bytes portValid port cmd offInit rest,
        s.host = .supply bytes portValid port cmd offInit :: rest)

/-- R72: once the cursor is initialised it never moves back, and no step moves it by more than two bytes. -/
def Obligations.CursorNeverMovesBack : Prop :=
  ∀ s t : State, s.phase.busy = true → s.phase ≠ .env → (∀ rest, s.host ≠ .reset :: rest) → step s = .next t →
    s.off ≤ t.off ∧ t.off ≤ s.off + 2 ∧ (s.off ≤ s.seq.len → t.off ≤ s.seq.len)

/-- R37: no operation writes the ByteSequence or any other input, and no step does but the host's own setting of them. -/
def Obligations.NothingWritesTheInputs : Prop :=
  (∀ (i : Instr) (s t : State), exec i s = .next t →
    t.seq = s.seq ∧ (∀ a, t.seq.byte a = s.seq.byte a) ∧ t.portValid = s.portValid ∧ t.port = s.port ∧
      t.cmd = s.cmd ∧ t.offInit = s.offInit ∧ t.host = s.host) ∧
    ∀ s t : State, step s = .next t →
      (∀ bytes portValid port cmd offInit rest, s.host ≠ .supply bytes portValid port cmd offInit :: rest) →
      t.seq = s.seq ∧ t.portValid = s.portValid ∧ t.port = s.port ∧ t.cmd = s.cmd ∧ t.offInit = s.offInit

/-- R112, R69 to R90 ("Flags written: none"): the frame of the primitive commands: FLAGS always unchanged; on success REC,
PRES and ERRCODE unchanged and OFF moved by exactly the width; every byte of B unchanged. -/
def Obligations.PrimitiveCommandFrame : Prop :=
  ∀ (i : Instr) (n : Nat) (s t : State), primitiveWidth i = some n → exec i s = .next t →
    t.flags = s.flags ∧ (∀ a, t.seq.byte a = s.seq.byte a) ∧ t.seq.len = s.seq.len ∧ t.phase = .done ∧
      (s.off + n ≤ s.seq.len →
        t.record = s.record ∧ t.pres = s.pres ∧ t.errcode = s.errcode ∧ t.off = s.off + n ∧ t.result = .ok)

/-- R100 to R104: the frame of the field-select operations: FLAGS always unchanged; on success VAL, ERRCODE and every other
slot with its presence bit unchanged; every byte of B unchanged. -/
def Obligations.FieldSelectFrame : Prop :=
  ∀ (i : Slot) (s t : State), exec i.instr s = .next t →
    t.flags = s.flags ∧ (∀ a, t.seq.byte a = s.seq.byte a) ∧ t.seq.len = s.seq.len ∧
      (s.off + fieldWidth i ≤ s.seq.len →
        t.val = s.val ∧ t.errcode = s.errcode ∧ t.off = s.off + fieldWidth i ∧
          (∀ j, j ≠ i → t.pres.getLsbD j.index = s.pres.getLsbD j.index) ∧
          (i ≠ .vbattery → t.record.vbattery = s.record.vbattery) ∧
          (i ≠ .vsystem → t.record.vsystem = s.record.vsystem) ∧
          (i ≠ .boot → t.record.boot = s.record.boot) ∧
          (i ≠ .temperatureC → t.record.temperatureC = s.record.temperatureC) ∧
          (i ≠ .differentialPressure → t.record.differentialPressure = s.record.differentialPressure))

/-- R94, R27 ("DECODE never writes `VAL`" with a value): the frame of DECODE: every byte of B unchanged, no value appears
on VAL, slots whose bit is clear and whose pass ends OK keep what they held, and OFF never exceeds 11. -/
def Obligations.DecodeFrame : Prop :=
  ∀ s : State, ∃ t, exec .decode s = .next t ∧ t.phase = .done ∧ (∀ a, t.seq.byte a = s.seq.byte a) ∧
    t.seq.len = s.seq.len ∧ (t.val = s.val ∨ t.val = none) ∧ (t.off = s.off ∨ t.off ≤ 11) ∧
    (t.result = .ok →
      t.val = s.val ∧ t.errcode = s.errcode ∧ t.flags = s.seq.byte 1 ∧
        (t.flags.getLsbD 0 = false → t.record.vbattery = s.record.vbattery) ∧
        (t.flags.getLsbD 1 = false → t.record.vsystem = s.record.vsystem) ∧
        (t.flags.getLsbD 2 = false → t.record.boot = s.record.boot) ∧
        (t.flags.getLsbD 3 = false → t.record.temperatureC = s.record.temperatureC) ∧
        (t.flags.getLsbD 4 = false → t.record.differentialPressure = s.record.differentialPressure))

/-- R20: within a pass a slot comes to hold another value only in its own phase with its bit set, or by losing its value in
fault entry; no other step of a BUSY core writes it. -/
def Obligations.EachSlotHasOneWriter : Prop :=
  ∀ s t : State, s.phase.busy = true → (∀ rest, s.host ≠ .reset :: rest) → step s = .next t → t.result ≠ .error →
    (t.record.vbattery ≠ s.record.vbattery → s.phase = .field .vbattery ∧ s.flags.getLsbD 0 = true) ∧
      (t.record.vsystem ≠ s.record.vsystem → s.phase = .field .vsystem ∧ s.flags.getLsbD 1 = true) ∧
      (t.record.boot ≠ s.record.boot → s.phase = .field .boot ∧ s.flags.getLsbD 2 = true) ∧
      (t.record.temperatureC ≠ s.record.temperatureC →
        s.phase = .field .temperatureC ∧ s.flags.getLsbD 3 = true) ∧
      (t.record.differentialPressure ≠ s.record.differentialPressure →
        s.phase = .field .differentialPressure ∧ s.flags.getLsbD 4 = true)

/-- R122, R123: a step that turns RESULT into ERROR is fault entry and nothing more: OFF and FLAGS as before the read, no
value, no slot, no presence bit (the spec's own choices 92_eei_decisions.md D6, D7). -/
def Obligations.ErrorComesOnlyFromFaultEntry : Prop :=
  ∀ s t : State, s.result ≠ .error → step s = .next t → t.result = .error →
    t = afterOutOfRange { s with host := s.host.tail }

/-- R32, R137: under the invariant a pass has exactly one outcome to read at DONE and none before; the host reads a record
only after a DECODE that ended OK, and a value only after a primitive command that ended OK, never both. RESULT and ERRCODE
are readable exactly at DONE, where RESULT is not NONE and ERRCODE is set exactly with ERROR. -/
def Obligations.OutcomeIsReadExactlyAtDone : Prop :=
  ∀ s : State, Inv s →
    ((∃ r, passOutcome s = some r) ↔ s.phase = .done) ∧
      (∀ r, hostRecord s = some r → passOutcome s = some (.decoded r) ∧ hostVal s = none) ∧
      (∀ v, hostVal s = some v → passOutcome s = some (.value v s.off) ∧ hostRecord s = none) ∧
      (s.result = .error → hostRecord s = none ∧ hostVal s = none) ∧
      (s.phase = .done → hostResult s = some s.result ∧ s.result ≠ .none ∧ hostErrcode s = some s.errcode ∧
        (s.errcode = .outOfRange ↔ s.result = .error)) ∧
      (s.phase ≠ .done → hostResult s = none ∧ hostErrcode s = none)

/-! ### Encoding (30_encoding.md) -/

/-- R50, R51, R61: words written out from the encodings decode to the operations they stand for, and others are refused. -/
def Obligations.SampleWordsDecode : Prop :=
  decode (.env 0b0001111100000101#16) = .ok .decode ∧
    decode (.env 0b0010000000000001#16) = .error (.formatMismatch 0x20#8) ∧
    decode (.sel .boot 0b00000100#8) = .ok .selBoot ∧ decode (.sel .differentialPressure 0b10110000#8) = .ok .selDp ∧
    decode (.sel .vsystem 0b11111101#8) = .error (.notSelected .vsystem) ∧
    decode (.cmd 0b0101#4) = .ok .decuflt16 ∧ decode (.cmd 0b1001#4) = .ok .dectempc ∧
    decode (.cmd 0b1010#4) = .error (.reservedCommand 0xA#4)

/-- R60: decoding the encoder's word of a well-formed operation gives the operation. -/
def Obligations.EncodedOperationsDecodeBack : Prop :=
  ∀ i : Instr, i.wellFormed = true → decode (encode i) = .ok i

/-- R50, R51, R62, R63, R64: the decoder accepts exactly the well-formed words, and two words of one format that agree in
the table's mask bits decode alike: the header's low byte and a bitmap's other bits are don't-care. -/
def Obligations.DecoderAcceptsExactlyTheWellFormed : Prop :=
  (∀ w : CodeWord, (∃ i, decode w = .ok i) ↔ w.wellFormed = true) ∧
    (∀ header : BitVec 16, decode (.env header) = .ok .decode ↔ header &&& 0xFF00#16 = 0x1F00#16) ∧
    ∀ (i : Slot) (flags flags' : Byte), flags.getLsbD i.index = flags'.getLsbD i.index →
      decode (.sel i flags) = decode (.sel i flags')

/-- R51: a bitmap selects every operation whose bit is set, each independently, in ascending bit order. -/
def Obligations.BitmapSelectsEverySetBitInOrder : Prop :=
  ∀ flags : Byte, decodeBitmap flags =
    ([(1, .selVbat), (2, .selVsys), (4, .selBoot), (8, .selTempc), (16, .selDp)] : List (Nat × Instr)).flatMap
      (fun row => if flags.toNat / row.1 % 2 = 1 then [row.2] else [])

/-! ### What the host reads on the wires (10_state.md R23, R24, R27, R28) -/

/-- R27: the 64 wires of VAL: an unsigned result zero-extended, the DECI16 result sign-extended in two's complement, a binary64
value as its pattern. The rendering is the spec's own choice (92_eei_decisions.md D25). -/
def Obligations.ValueWiresExtendTheResult : Prop :=
  (∀ v : Byte, (Value.unsigned v.toNat).wires = v.setWidth 64) ∧
    (∀ raw : Raw, (Value.unsigned raw.toNat).wires = raw.setWidth 64) ∧
    (∀ raw : Raw, (Value.signed (i16OfRaw raw)).wires = raw.signExtend 64) ∧
    ∀ x : F64, (Value.float x).wires = x

/-- R23, R24, R28: RESULT, ERRCODE and PHASE are read as the codes of the spec: distinct, with PHASE below 10, and BUSY exactly
where the code is 1..7 or 9. The codes are the spec's own choice (92_eei_decisions.md D4, D8). -/
def Obligations.RegisterCodesAreThoseOfTheSpec : Prop :=
  (ResultTag.none.code = 0#2 ∧ ResultTag.notApplicable.code = 1#2 ∧ ResultTag.ok.code = 2#2 ∧
      ResultTag.error.code = 3#2) ∧
    (ErrCode.none.code = 0#1 ∧ ErrCode.outOfRange.code = 1#1) ∧
    (Phase.idle.code = 0#4 ∧ Phase.env.code = 1#4 ∧ Phase.bmp.code = 2#4 ∧
      (∀ i : Slot, (Phase.field i).code.toNat = 3 + i.index) ∧ Phase.done.code = 8#4 ∧ Phase.prim.code = 9#4) ∧
    ∀ p q : Phase, p.code.toNat < 10 ∧ (p.code = q.code → p = q) ∧
      (p.busy = true ↔ (1 ≤ p.code.toNat ∧ p.code.toNat ≤ 7) ∨ p.code.toNat = 9)
end

