-- ==== Sys2Proof/Laws/Float.lean ====
section
/-! SUPPORT. The spec lemmas of the binary64 arithmetic (00_scope.md R11): what each of its functions answers, in exact
rational numbers. -/

namespace Sys2Proof.Machine

/-- The rounded quotient is within half of the quotient, and even where it is exactly half away. -/
theorem divRoundEven_spec (n d : Nat) (hd : 0 < d) :
    2 * n ≤ 2 * (divRoundEven n d * d) + d ∧ 2 * (divRoundEven n d * d) ≤ 2 * n + d ∧
      (2 * n = 2 * (divRoundEven n d * d) + d ∨ 2 * (divRoundEven n d * d) = 2 * n + d →
        divRoundEven n d % 2 = 0) := by
  have hdm : d * (n / d) + n % d = n := Nat.div_add_mod n d
  have hr : n % d < d := Nat.mod_lt n hd
  have hc : n / d * d = d * (n / d) := Nat.mul_comm _ _
  unfold divRoundEven
  simp only
  split
  · have h1 : (n / d + 1) * d = d * (n / d) + d := by ring
    rw [h1]
    refine ⟨by omega, by omega, fun h => ?_⟩
    omega
  · rw [hc]
    refine ⟨by omega, by omega, fun h => ?_⟩
    omega

theorem two_zpow_toNat (k : Int) : (2 : ℚ) ^ k.toNat = 2 ^ k * 2 ^ (-k).toNat := by
  rcases Int.le_total 0 k with h | h
  · have h0 : (-k).toNat = 0 := by omega
    rw [h0, pow_zero, mul_one, ← zpow_natCast, Int.toNat_of_nonneg h]
  · have h0 : k.toNat = 0 := by omega
    rw [h0, pow_zero, ← zpow_natCast (2 : ℚ) (-k).toNat, Int.toNat_of_nonneg (by omega),
      ← zpow_add₀ (by norm_num : (2 : ℚ) ≠ 0)]
    simp

/-- `floorLog2` is the exponent of the binade of a quotient. -/
theorem floorLog2_spec (n d : Nat) (hn : 0 < n) (hd : 0 < d) :
    (2 : ℚ) ^ floorLog2 n d * d ≤ n ∧ (n : ℚ) < 2 ^ (floorLog2 n d + 1) * d := by
  have h2 : (2 : ℚ) ≠ 0 := by norm_num
  have n1 : (2 : ℚ) ^ (n.log2 : Int) ≤ n := by
    rw [zpow_natCast]; exact_mod_cast Nat.log2_self_le (by omega)
  have n2 : (n : ℚ) < 2 ^ ((n.log2 : Int) + 1) := by
    have := Nat.lt_log2_self (n := n)
    rw [show ((n.log2 : Int) + 1) = ((n.log2 + 1 : Nat) : Int) by push_cast; rfl, zpow_natCast]
    exact_mod_cast this
  have d1 : (2 : ℚ) ^ (d.log2 : Int) ≤ d := by
    rw [zpow_natCast]; exact_mod_cast Nat.log2_self_le (by omega)
  have d2 : (d : ℚ) < 2 ^ ((d.log2 : Int) + 1) := by
    have := Nat.lt_log2_self (n := d)
    rw [show ((d.log2 : Int) + 1) = ((d.log2 + 1 : Nat) : Int) by push_cast; rfl, zpow_natCast]
    exact_mod_cast this
  have hdq : (0 : ℚ) < d := by exact_mod_cast hd
  have key : ∀ k : Int, (d * 2 ^ k.toNat ≤ n * 2 ^ (-k).toNat ↔ (2 : ℚ) ^ k * d ≤ n) := by
    intro k
    rw [← Nat.cast_le (α := ℚ)]
    push_cast
    rw [two_zpow_toNat k]
    have hp : (0 : ℚ) < 2 ^ (-k).toNat := by positivity
    rw [show (d : ℚ) * (2 ^ k * 2 ^ (-k).toNat) = (2 ^ k * d) * 2 ^ (-k).toNat by ring]
    exact mul_le_mul_iff_left₀ hp
  unfold floorLog2
  simp only
  generalize hk : (n.log2 : Int) - (d.log2 : Int) = k
  have hlow : (2 : ℚ) ^ (k - 1) * d ≤ n := by
    have : (2 : ℚ) ^ (k - 1) * 2 ^ ((d.log2 : Int) + 1) = 2 ^ (n.log2 : Int) := by
      rw [← zpow_add₀ h2]; congr 1; omega
    calc (2 : ℚ) ^ (k - 1) * d ≤ 2 ^ (k - 1) * 2 ^ ((d.log2 : Int) + 1) := by
          exact mul_le_mul_of_nonneg_left d2.le (by positivity)
      _ ≤ n := by rw [this]; exact n1
  have hhigh : (n : ℚ) < 2 ^ (k + 1) * d := by
    have : (2 : ℚ) ^ (k + 1) * 2 ^ (d.log2 : Int) = 2 ^ ((n.log2 : Int) + 1) := by
      rw [← zpow_add₀ h2]; congr 1; omega
    calc (n : ℚ) < 2 ^ (k + 1) * 2 ^ (d.log2 : Int) := by rw [this]; exact n2
      _ ≤ 2 ^ (k + 1) * d := mul_le_mul_of_nonneg_left d1 (by positivity)
  split
  · rename_i h
    exact ⟨(key k).1 h, hhigh⟩
  · rename_i h
    rw [key k] at h
    exact ⟨hlow, by simpa using lt_of_not_ge h⟩

/-- The fields of a packed value of finite magnitude. -/
theorem f64Pack_fields (neg : Bool) (u m : Nat) (hfin : u * 2 ^ 52 + m < 2047 * 2 ^ 52) :
    f64Sign (f64Pack neg (u * 2 ^ 52 + m)) = neg ∧
      f64Exponent (f64Pack neg (u * 2 ^ 52 + m)) = u + m / 2 ^ 52 ∧
      f64Fraction (f64Pack neg (u * 2 ^ 52 + m)) = m % 2 ^ 52 := by
  have hmin : min (u * 2 ^ 52 + m) (2047 * 2 ^ 52) = u * 2 ^ 52 + m := by omega
  have hnat : (f64Pack neg (u * 2 ^ 52 + m)).toNat = (if neg then 2 ^ 63 else 0) + (u * 2 ^ 52 + m) := by
    unfold f64Pack
    rw [hmin, BitVec.toNat_ofNat]
    cases neg <;> (simp only [Bool.false_eq_true, if_true, if_false]; omega)
  refine ⟨?_, ?_, ?_⟩
  · unfold f64Sign
    rw [BitVec.msb_eq_decide, hnat]
    cases neg
    · simp only [Bool.false_eq_true, if_false, decide_eq_false_iff_not]; omega
    · simp only [if_true, decide_eq_true_eq]; omega
  · unfold f64Exponent
    rw [hnat]
    cases neg <;> (simp only [Bool.false_eq_true, if_true, if_false]; omega)
  · unfold f64Fraction
    rw [hnat]
    cases neg <;> (simp only [Bool.false_eq_true, if_true, if_false]; omega)

/-- What a packed significand m at the unit `2^(u - 1074)` stands for, where m has its top bit unless the unit is the
least one. -/
theorem f64Pack_spec (neg : Bool) (u m : Nat) (hm : m ≤ 2 ^ 53) (hu : 0 < u → 2 ^ 52 ≤ m)
    (hfin : u * 2 ^ 52 + m < 2047 * 2 ^ 52) :
    f64Finite (f64Pack neg (u * 2 ^ 52 + m)) = true ∧
      f64Sign (f64Pack neg (u * 2 ^ 52 + m)) = neg ∧
      f64Fraction (f64Pack neg (u * 2 ^ 52 + m)) % 2 = m % 2 ∧
      f64Val (f64Pack neg (u * 2 ^ 52 + m)) = (if neg then -1 else 1) * (m : ℚ) * 2 ^ ((u : Int) - 1074) := by
  obtain ⟨hs, he, hf⟩ := f64Pack_fields neg u m hfin
  refine ⟨?_, hs, by rw [hf]; omega, ?_⟩
  · unfold f64Finite
    rw [he]
    simp only [bne_iff_ne]
    omega
  · unfold f64Val f64Significand f64Scale
    rw [hs, he, hf]
    have h2 : (2 : ℚ) ≠ 0 := by norm_num
    rcases Nat.lt_or_ge m (2 ^ 52) with h | h
    · have h0 : u = 0 := by
        rcases Nat.eq_zero_or_pos u with h0 | h0
        · exact h0
        · exact absurd (hu h0) (by omega)
      subst h0
      have h1 : m / 2 ^ 52 = 0 := by omega
      rw [h1, if_pos rfl, show m % 2 ^ 52 = m by omega]
      norm_num
    · rcases Nat.lt_or_ge m (2 ^ 53) with h' | h'
      · have h1 : m / 2 ^ 52 = 1 := by omega
        rw [h1, if_neg (by omega : ¬u + 1 = 0), show 2 ^ 52 + m % 2 ^ 52 = m by omega,
          show max (u + 1) 1 = u + 1 by omega,
          show (((u + 1 : Nat) : Int) - 1075) = (u : Int) - 1074 by push_cast; omega]
      · have h1 : m = 2 ^ 53 := by omega
        subst h1
        rw [show 2 ^ 53 / 2 ^ 52 = 2 by norm_num, if_neg (by omega : ¬u + 2 = 0),
          show max (u + 2) 1 = u + 2 by omega,
          show (((u + 2 : Nat) : Int) - 1075) = ((u : Int) - 1074) + 1 by push_cast; omega,
          zpow_add₀ h2, zpow_one]
        push_cast
        norm_num
        ring_nf

/-- What `roundNearest` answers for a number other than zero: a significand m at a unit, within half a unit of the number,
even where it is exactly half a unit away; the unit is that of the number's binade or the least one. -/
theorem roundNearest_spec (neg : Bool) (n d : Nat) (k : Int) (hn : 0 < n) (hd : 0 < d) :
    ∃ (u m : Nat), roundNearest neg n d k = f64Pack neg (u * 2 ^ 52 + m) ∧
      m ≤ 2 ^ 53 ∧ (0 < u → 2 ^ 52 ≤ m ∧ (2 : ℚ) ^ ((u : Int) - 1074 + 52) ≤ (n : ℚ) / d * 2 ^ k) ∧
      (n : ℚ) / d * 2 ^ k < 2 ^ ((u : Int) - 1074 + 53) ∧
      |(n : ℚ) / d * 2 ^ k - m * 2 ^ ((u : Int) - 1074)| ≤ 2 ^ ((u : Int) - 1074) / 2 ∧
      (|(n : ℚ) / d * 2 ^ k - m * 2 ^ ((u : Int) - 1074)| = 2 ^ ((u : Int) - 1074) / 2 → m % 2 = 0) := by
  have h2 : (2 : ℚ) ≠ 0 := by norm_num
  have hdq : (0 : ℚ) < d := by exact_mod_cast hd
  obtain ⟨l1, l2⟩ := floorLog2_spec n d hn hd
  generalize hl : floorLog2 n d = l at l1 l2
  let ulp : Int := max (l + k - 52) (-1074)
  have hulp : ulp = max (l + k - 52) (-1074) := rfl
  let u : Nat := (ulp + 1074).toNat
  have hu : ((u : Int) - 1074) = ulp := by
    show (((ulp + 1074).toNat : Nat) : Int) - 1074 = ulp
    rw [Int.toNat_of_nonneg (by omega)]; omega
  let sh : Int := k - ulp
  let N := n * 2 ^ sh.toNat
  let D := d * 2 ^ (-sh).toNat
  have hD : 0 < D := by positivity
  let m := divRoundEven N D
  have hval : roundNearest neg n d k = f64Pack neg (u * 2 ^ 52 + m) := by
    unfold roundNearest
    rw [if_neg (by omega)]
    simp only [hl]
    rfl
  obtain ⟨r1, r2, r3⟩ := divRoundEven_spec N D hD
  -- the scaled quotient
  have hpos : (0 : ℚ) < 2 ^ (-sh).toNat := by positivity
  have hDq : (0 : ℚ) < (D : ℚ) := by exact_mod_cast hD
  let x : ℚ := (N : ℚ) / D
  have hx : x = (n : ℚ) / d * 2 ^ sh := by
    show ((n * 2 ^ sh.toNat : Nat) : ℚ) / ((d * 2 ^ (-sh).toNat : Nat) : ℚ) = _
    push_cast
    rw [two_zpow_toNat sh]
    field_simp
  have hxv : (n : ℚ) / d * 2 ^ k = x * 2 ^ ulp := by
    rw [hx, mul_assoc, ← zpow_add₀ h2]
    congr 2
    show k = (k - ulp) + ulp
    omega
  have hNx : (N : ℚ) = x * D := by
    show (N : ℚ) = (N : ℚ) / D * D
    field_simp
  have hnd_low : (2 : ℚ) ^ l ≤ (n : ℚ) / d := by rw [le_div_iff₀ hdq]; exact l1
  have hnd_high : (n : ℚ) / d < 2 ^ (l + 1) := by rw [div_lt_iff₀ hdq]; exact l2
  have hx_high : x < 2 ^ 53 := by
    rw [hx]
    calc (n : ℚ) / d * 2 ^ sh < 2 ^ (l + 1) * 2 ^ sh := by
          exact mul_lt_mul_of_pos_right hnd_high (by positivity)
      _ = 2 ^ (l + 1 + sh) := by rw [← zpow_add₀ h2]
      _ ≤ 2 ^ (53 : Int) := by
          apply zpow_le_zpow_right₀ (by norm_num)
          show l + 1 + (k - ulp) ≤ 53
          omega
      _ = 2 ^ 53 := by norm_num
  have hx_low : 0 < u → (2 : ℚ) ^ 52 ≤ x := by
    intro hu0
    have : ulp = l + k - 52 := by omega
    rw [hx]
    calc (2 : ℚ) ^ 52 = 2 ^ (52 : Int) := by norm_num
      _ = 2 ^ (l + sh) := by congr 1; show 52 = l + (k - ulp); omega
      _ = 2 ^ l * 2 ^ sh := by rw [← zpow_add₀ h2]
      _ ≤ (n : ℚ) / d * 2 ^ sh := mul_le_mul_of_nonneg_right hnd_low (by positivity)
  have e1 : 2 * x ≤ 2 * m + 1 := by
    have : (2 * N : ℚ) ≤ 2 * (m * D) + D := by exact_mod_cast r1
    rw [hNx] at this
    nlinarith
  have e2 : 2 * (m : ℚ) ≤ 2 * x + 1 := by
    have : (2 * (m * D) : ℚ) ≤ 2 * N + D := by exact_mod_cast r2
    rw [hNx] at this
    nlinarith
  refine ⟨u, m, hval, ?_, ?_, ?_, ?_, ?_⟩
  · have : (m : ℚ) < 2 ^ 53 + 1 := by linarith
    have : m < 2 ^ 53 + 1 := by exact_mod_cast this
    omega
  · intro hu0
    have hlow := hx_low hu0
    refine ⟨?_, ?_⟩
    · have : (2 : ℚ) ^ 52 < m + 1 := by linarith
      have : 2 ^ 52 < m + 1 := by exact_mod_cast this
      omega
    · rw [hxv, hu, add_comm, zpow_add₀ h2]
      exact mul_le_mul_of_nonneg_right (by simpa using hlow) (by positivity)
  · rw [hxv, hu, add_comm, zpow_add₀ h2]
    exact mul_lt_mul_of_pos_right (by simpa using hx_high) (by positivity)
  · rw [hxv, hu, ← sub_mul, abs_mul, abs_of_pos (by positivity : (0 : ℚ) < 2 ^ ulp)]
    have : |x - m| ≤ 1 / 2 := by rw [abs_le]; constructor <;> linarith
    calc |x - m| * 2 ^ ulp ≤ 1 / 2 * 2 ^ ulp := mul_le_mul_of_nonneg_right this (by positivity)
      _ = 2 ^ ulp / 2 := by ring
  · rw [hxv, hu, ← sub_mul, abs_mul, abs_of_pos (by positivity : (0 : ℚ) < 2 ^ ulp)]
    intro h
    have hp : (0 : ℚ) < 2 ^ ulp := by positivity
    have habs : |x - m| = 1 / 2 := by
      have : |x - m| * 2 ^ ulp = 1 / 2 * 2 ^ ulp := by rw [h]; ring
      exact mul_right_cancel₀ hp.ne' this
    apply r3
    rcases abs_eq (by norm_num : (0 : ℚ) ≤ 1 / 2) |>.1 habs with h | h
    · left
      have : (2 * N : ℚ) = 2 * (m * D) + D := by rw [hNx]; linear_combination 2 * D * h
      exact_mod_cast this
    · right
      have : (2 * (m * D) : ℚ) = 2 * N + D := by rw [hNx]; linear_combination -2 * D * h
      exact_mod_cast this

/-- A number that binary64 represents is answered as it is. -/
theorem roundNearest_exact (neg : Bool) (n d : Nat) (k : Int) (hd : 0 < d) (M : Nat) (E : Int)
    (hx : (n : ℚ) / d * 2 ^ k = M * 2 ^ E) (hM : M < 2 ^ 53) (hE : -1074 ≤ E)
    (hmax : (M : ℚ) * 2 ^ E < 2 ^ (1024 : Int)) :
    f64Finite (roundNearest neg n d k) = true ∧ f64Sign (roundNearest neg n d k) = neg ∧
      f64Val (roundNearest neg n d k) = (if neg then -1 else 1) * ((M : ℚ) * 2 ^ E) := by
  have h2 : (2 : ℚ) ≠ 0 := by norm_num
  rcases Nat.eq_zero_or_pos n with h0 | hn
  · subst h0
    have hz : (M : ℚ) * 2 ^ E = 0 := by rw [← hx]; simp
    have hr : roundNearest neg 0 d k = f64Pack neg (0 * 2 ^ 52 + 0) := rfl
    obtain ⟨f1, f2, -, f4⟩ := f64Pack_spec neg 0 0 (by norm_num) (by norm_num) (by norm_num)
    rw [hr, hz]
    exact ⟨f1, f2, by rw [f4]; simp⟩
  · obtain ⟨u, m, hr, hm, hlow, hhigh, habs, -⟩ := roundNearest_spec neg n d k hn hd
    rw [hx] at hlow hhigh habs
    have hU : (0 : ℚ) < 2 ^ ((u : Int) - 1074) := by positivity
    have hEU : (u : Int) - 1074 ≤ E := by
      by_contra hlt
      have hu0 : 0 < u := by omega
      have h1 := (hlow hu0).2
      have h3 : (M : ℚ) * 2 ^ E < 2 ^ (53 : Int) * 2 ^ E := by
        apply mul_lt_mul_of_pos_right _ (by positivity)
        rw [zpow_ofNat]; exact_mod_cast hM
      rw [← zpow_add₀ h2] at h3
      have h4 : (2 : ℚ) ^ (53 + E) ≤ 2 ^ ((u : Int) - 1074 + 52) :=
        zpow_le_zpow_right₀ (by norm_num) (by omega)
      linarith
    have hsplit : (M : ℚ) * 2 ^ E = ((M * 2 ^ (E - ((u : Int) - 1074)).toNat : Nat) : ℚ) * 2 ^ ((u : Int) - 1074) := by
      push_cast
      rw [← zpow_natCast, Int.toNat_of_nonneg (by omega), mul_assoc, ← zpow_add₀ h2]
      congr 2; omega
    generalize M * 2 ^ (E - ((u : Int) - 1074)).toNat = w at hsplit
    have hmw : m = w := by
      rw [hsplit, ← sub_mul, abs_mul, abs_of_pos hU] at habs
      have h1 : |(w : ℚ) - m| ≤ 1 / 2 := by
        by_contra hgt
        have := mul_lt_mul_of_pos_right (not_le.1 hgt) hU
        linarith
      rw [abs_le] at h1
      have h3 : (w : ℚ) < m + 1 := by linarith
      have h4 : (m : ℚ) < w + 1 := by linarith
      have h5 : w < m + 1 := by exact_mod_cast h3
      have h6 : m < w + 1 := by exact_mod_cast h4
      omega
    have hfin : u * 2 ^ 52 + m < 2047 * 2 ^ 52 := by
      by_contra hge
      have hu0 : 0 < u := by omega
      have hm0 := (hlow hu0).1
      have hbig : (2 : ℚ) ^ (1024 : Int) ≤ (m : ℚ) * 2 ^ ((u : Int) - 1074) := by
        rcases Nat.lt_or_ge u 2046 with hu | hu
        · have hm53 : m = 2 ^ 53 := by omega
          have hu45 : u = 2045 := by omega
          subst hm53 hu45
          rw [show ((2 ^ 53 : Nat) : ℚ) = 2 ^ (53 : Int) by norm_num, ← zpow_add₀ h2]
          exact zpow_le_zpow_right₀ (by norm_num) (by norm_num)
        · have h5 : (2 : ℚ) ^ (52 : Int) ≤ m := by rw [zpow_ofNat]; exact_mod_cast hm0
          calc (2 : ℚ) ^ (1024 : Int) ≤ 2 ^ ((52 : Int) + ((u : Int) - 1074)) :=
                zpow_le_zpow_right₀ (by norm_num) (by omega)
            _ = 2 ^ (52 : Int) * 2 ^ ((u : Int) - 1074) := zpow_add₀ h2 _ _
            _ ≤ m * 2 ^ ((u : Int) - 1074) := mul_le_mul_of_nonneg_right h5 hU.le
      rw [hsplit, ← hmw] at hmax
      linarith
    obtain ⟨f1, f2, -, f4⟩ := f64Pack_spec neg u m hm (fun h => (hlow h).1) hfin
    rw [hr]
    refine ⟨f1, f2, ?_⟩
    rw [f4, hsplit, hmw, mul_assoc]

/-- The magnitude of a value. -/
theorem f64Val_eq (x : F64) :
    f64Val x = (if f64Sign x then -1 else 1) * ((f64Significand x : ℚ) * 2 ^ f64Scale x) := by
  unfold f64Val; ring

theorem f64Val_abs (x : F64) : |f64Val x| = (f64Significand x : ℚ) * 2 ^ f64Scale x := by
  have h : (0 : ℚ) ≤ (f64Significand x : ℚ) * 2 ^ f64Scale x := by positivity
  rw [f64Val_eq, abs_mul, abs_of_nonneg h]
  cases f64Sign x <;> simp

/-- `i2f` is exact on every integer of magnitude below 2^53 (41_integer_decoders.md R76), and gives +0 for 0. -/
theorem i2f_spec (z : Int) (hz : z.natAbs < 2 ^ 53) :
    f64Finite (i2f z) = true ∧ f64Sign (i2f z) = decide (z < 0) ∧ f64Val (i2f z) = z := by
  have hmax : ((z.natAbs : Nat) : ℚ) * 2 ^ (0 : Int) < 2 ^ (1024 : Int) := by
    have h1 : ((z.natAbs : Nat) : ℚ) < 2 ^ (53 : Int) := by rw [zpow_ofNat]; exact_mod_cast hz
    have h3 : (2 : ℚ) ^ (53 : Int) ≤ 2 ^ (1024 : Int) := zpow_le_zpow_right₀ (by norm_num) (by norm_num)
    rw [zpow_zero, mul_one]
    exact lt_of_lt_of_le h1 h3
  obtain ⟨h1, h3, h4⟩ := roundNearest_exact (decide (z < 0)) z.natAbs 1 0 (by norm_num) z.natAbs 0
    (by norm_num) hz (by norm_num) hmax
  refine ⟨h1, h3, ?_⟩
  show f64Val (roundNearest _ _ _ _) = _
  rw [h4, zpow_zero, mul_one]
  rcases lt_or_ge z 0 with h | h
  · have : ((z.natAbs : Int) : ℚ) = ((-z : Int) : ℚ) := by congr 1; omega
    simp only [h, decide_true, if_true]
    rw [← Int.cast_natCast, this]; push_cast; ring
  · have : ((z.natAbs : Int) : ℚ) = ((z : Int) : ℚ) := by congr 1; omega
    simp only [not_lt.2 h, decide_false, Bool.false_eq_true, if_false]
    rw [← Int.cast_natCast, this]; ring

/-- `pow2` is exact (42_compact_float.md R87). -/
theorem pow2_spec (k : Int) (h1 : -1022 ≤ k) (h2 : k ≤ 1023) :
    f64Finite (pow2 k) = true ∧ f64Sign (pow2 k) = false ∧ f64Val (pow2 k) = 2 ^ k := by
  have he : (k + 1023).toNat * 2 ^ 52 = (k + 1022).toNat * 2 ^ 52 + 2 ^ 52 := by
    have : (k + 1023).toNat = (k + 1022).toNat + 1 := by omega
    rw [this]; ring
  obtain ⟨f1, f2, -, f4⟩ := f64Pack_spec false (k + 1022).toNat (2 ^ 52) (by norm_num) (fun _ => le_refl _)
    (by omega)
  unfold pow2
  rw [he]
  refine ⟨f1, f2, ?_⟩
  rw [f4, Int.toNat_of_nonneg (by omega)]
  have h3 : (2 : ℚ) ≠ 0 := by norm_num
  rw [show ((2 ^ 52 : Nat) : ℚ) = 2 ^ (52 : Int) by norm_num]
  simp only [Bool.false_eq_true, if_false, one_mul]
  rw [← zpow_add₀ h3]
  congr 1; omega

/-- A product that binary64 represents is exact, its sign the exclusive-or of the signs (00_scope.md R11). -/
theorem fmul_exact (a b : F64) (ha : f64Finite a = true) (hb : f64Finite b = true) (M : Nat) (E : Int)
    (hx : |f64Val a * f64Val b| = M * 2 ^ E) (hM : M < 2 ^ 53) (hE : -1074 ≤ E)
    (hmax : (M : ℚ) * 2 ^ E < 2 ^ (1024 : Int)) :
    f64Finite (fmul a b) = true ∧ f64Sign (fmul a b) = (f64Sign a ^^ f64Sign b) ∧
      f64Val (fmul a b) = f64Val a * f64Val b := by
  have h2 : (2 : ℚ) ≠ 0 := by norm_num
  have hmag : |f64Val a * f64Val b| =
      ((f64Significand a * f64Significand b : Nat) : ℚ) / (1 : Nat) * 2 ^ (f64Scale a + f64Scale b) := by
    rw [abs_mul, f64Val_abs, f64Val_abs, zpow_add₀ h2]
    push_cast
    ring
  obtain ⟨h1, h3, h4⟩ := roundNearest_exact (f64Sign a ^^ f64Sign b) _ 1 _ (by norm_num) M E
    (hmag.symm.trans hx) hM hE hmax
  have hr : fmul a b = roundNearest (f64Sign a ^^ f64Sign b) (f64Significand a * f64Significand b) 1
      (f64Scale a + f64Scale b) := by simp [fmul, ha, hb]
  rw [hr]
  refine ⟨h1, h3, ?_⟩
  rw [h4, ← hx, hmag, f64Val_eq a, f64Val_eq b, zpow_add₀ h2]
  push_cast
  cases f64Sign a <;> cases f64Sign b <;> simp <;> ring

/-- The quotient of two finite values, the divisor not zero, is the rounding of the exact quotient. -/
theorem fdiv_eq (a b : F64) (ha : f64Finite a = true) (hb : f64Finite b = true) (hb0 : f64Val b ≠ 0) :
    0 < f64Significand b ∧
      fdiv a b = roundNearest (f64Sign a ^^ f64Sign b) (f64Significand a) (f64Significand b)
        (f64Scale a - f64Scale b) ∧
      |f64Val a / f64Val b| =
        (f64Significand a : ℚ) / (f64Significand b : Nat) * 2 ^ (f64Scale a - f64Scale b) ∧
      f64Val a / f64Val b =
        (if f64Sign a ^^ f64Sign b then -1 else 1) *
          ((f64Significand a : ℚ) / (f64Significand b : Nat) * 2 ^ (f64Scale a - f64Scale b)) := by
  have h2 : (2 : ℚ) ≠ 0 := by norm_num
  have hs : f64Significand b ≠ 0 := by
    intro h; apply hb0; rw [f64Val_eq, h]; simp
  have hsq : (f64Significand b : ℚ) ≠ 0 := by exact_mod_cast hs
  have hzb : (2 : ℚ) ^ f64Scale b ≠ 0 := zpow_ne_zero _ h2
  have hq : f64Val a / f64Val b =
      (if f64Sign a ^^ f64Sign b then -1 else 1) *
        ((f64Significand a : ℚ) / (f64Significand b : Nat) * 2 ^ (f64Scale a - f64Scale b)) := by
    rw [f64Val_eq a, f64Val_eq b, zpow_sub₀ h2]
    cases f64Sign a <;> cases f64Sign b <;> simp <;> field_simp
  refine ⟨Nat.pos_of_ne_zero hs, by simp [fdiv, ha, hb, hs], ?_, hq⟩
  rw [abs_div, f64Val_abs, f64Val_abs, zpow_sub₀ h2]
  field_simp

/-- A quotient that binary64 represents is exact, its sign the exclusive-or of the signs (00_scope.md R11). -/
theorem fdiv_exact (a b : F64) (ha : f64Finite a = true) (hb : f64Finite b = true) (hb0 : f64Val b ≠ 0)
    (M : Nat) (E : Int) (hx : |f64Val a / f64Val b| = M * 2 ^ E) (hM : M < 2 ^ 53) (hE : -1074 ≤ E)
    (hmax : (M : ℚ) * 2 ^ E < 2 ^ (1024 : Int)) :
    f64Finite (fdiv a b) = true ∧ f64Sign (fdiv a b) = (f64Sign a ^^ f64Sign b) ∧
      f64Val (fdiv a b) = f64Val a / f64Val b := by
  obtain ⟨hpos, hr, hmag, hq⟩ := fdiv_eq a b ha hb hb0
  obtain ⟨h1, h3, h4⟩ := roundNearest_exact (f64Sign a ^^ f64Sign b) _ _ _ hpos M E (hmag.symm.trans hx) hM hE hmax
  rw [hr]
  refine ⟨h1, h3, ?_⟩
  rw [h4, ← hx, hmag, hq]

end Sys2Proof.Machine
end

