-- ==== Sys2Proof/Laws/State.lean ====
section
/-! SUPPORT. One lemma per field per register update of Machine/Ops.lean, so that no proof unfolds a record update. -/

namespace Sys2Proof.Machine

variable (s : State)

/-! ### advance -/

@[simp] theorem State.advance_seq (n : Nat) :
    (s.advance n).seq = s.seq := rfl
@[simp] theorem State.advance_portValid (n : Nat) :
    (s.advance n).portValid = s.portValid := rfl
@[simp] theorem State.advance_port (n : Nat) :
    (s.advance n).port = s.port := rfl
@[simp] theorem State.advance_cmd (n : Nat) :
    (s.advance n).cmd = s.cmd := rfl
@[simp] theorem State.advance_offInit (n : Nat) :
    (s.advance n).offInit = s.offInit := rfl
@[simp] theorem State.advance_off (n : Nat) :
    (s.advance n).off = s.off + n := rfl
@[simp] theorem State.advance_flags (n : Nat) :
    (s.advance n).flags = s.flags := rfl
@[simp] theorem State.advance_record (n : Nat) :
    (s.advance n).record = s.record := rfl
@[simp] theorem State.advance_pres (n : Nat) :
    (s.advance n).pres = s.pres := rfl
@[simp] theorem State.advance_val (n : Nat) :
    (s.advance n).val = s.val := rfl
@[simp] theorem State.advance_result (n : Nat) :
    (s.advance n).result = s.result := rfl
@[simp] theorem State.advance_errcode (n : Nat) :
    (s.advance n).errcode = s.errcode := rfl
@[simp] theorem State.advance_phase (n : Nat) :
    (s.advance n).phase = s.phase := rfl
@[simp] theorem State.advance_host (n : Nat) :
    (s.advance n).host = s.host := rfl

/-! ### enter -/

@[simp] theorem State.enter_seq (p : Phase) :
    (s.enter p).seq = s.seq := rfl
@[simp] theorem State.enter_portValid (p : Phase) :
    (s.enter p).portValid = s.portValid := rfl
@[simp] theorem State.enter_port (p : Phase) :
    (s.enter p).port = s.port := rfl
@[simp] theorem State.enter_cmd (p : Phase) :
    (s.enter p).cmd = s.cmd := rfl
@[simp] theorem State.enter_offInit (p : Phase) :
    (s.enter p).offInit = s.offInit := rfl
@[simp] theorem State.enter_off (p : Phase) :
    (s.enter p).off = s.off := rfl
@[simp] theorem State.enter_flags (p : Phase) :
    (s.enter p).flags = s.flags := rfl
@[simp] theorem State.enter_record (p : Phase) :
    (s.enter p).record = s.record := rfl
@[simp] theorem State.enter_pres (p : Phase) :
    (s.enter p).pres = s.pres := rfl
@[simp] theorem State.enter_val (p : Phase) :
    (s.enter p).val = s.val := rfl
@[simp] theorem State.enter_result (p : Phase) :
    (s.enter p).result = s.result := rfl
@[simp] theorem State.enter_errcode (p : Phase) :
    (s.enter p).errcode = s.errcode := rfl
@[simp] theorem State.enter_phase (p : Phase) :
    (s.enter p).phase = p := rfl
@[simp] theorem State.enter_host (p : Phase) :
    (s.enter p).host = s.host := rfl

/-! ### initCursor -/

@[simp] theorem State.initCursor_seq :
    s.initCursor.seq = s.seq := rfl
@[simp] theorem State.initCursor_portValid :
    s.initCursor.portValid = s.portValid := rfl
@[simp] theorem State.initCursor_port :
    s.initCursor.port = s.port := rfl
@[simp] theorem State.initCursor_cmd :
    s.initCursor.cmd = s.cmd := rfl
@[simp] theorem State.initCursor_offInit :
    s.initCursor.offInit = s.offInit := rfl
@[simp] theorem State.initCursor_off :
    s.initCursor.off = 1 := rfl
@[simp] theorem State.initCursor_flags :
    s.initCursor.flags = s.flags := rfl
@[simp] theorem State.initCursor_record :
    s.initCursor.record = s.record := rfl
@[simp] theorem State.initCursor_pres :
    s.initCursor.pres = s.pres := rfl
@[simp] theorem State.initCursor_val :
    s.initCursor.val = s.val := rfl
@[simp] theorem State.initCursor_result :
    s.initCursor.result = s.result := rfl
@[simp] theorem State.initCursor_errcode :
    s.initCursor.errcode = s.errcode := rfl
@[simp] theorem State.initCursor_phase :
    s.initCursor.phase = s.phase := rfl
@[simp] theorem State.initCursor_host :
    s.initCursor.host = s.host := rfl

/-! ### latchFlags -/

@[simp] theorem State.latchFlags_seq (v : Byte) :
    (s.latchFlags v).seq = s.seq := rfl
@[simp] theorem State.latchFlags_portValid (v : Byte) :
    (s.latchFlags v).portValid = s.portValid := rfl
@[simp] theorem State.latchFlags_port (v : Byte) :
    (s.latchFlags v).port = s.port := rfl
@[simp] theorem State.latchFlags_cmd (v : Byte) :
    (s.latchFlags v).cmd = s.cmd := rfl
@[simp] theorem State.latchFlags_offInit (v : Byte) :
    (s.latchFlags v).offInit = s.offInit := rfl
@[simp] theorem State.latchFlags_off (v : Byte) :
    (s.latchFlags v).off = s.off := rfl
@[simp] theorem State.latchFlags_flags (v : Byte) :
    (s.latchFlags v).flags = v := rfl
@[simp] theorem State.latchFlags_record (v : Byte) :
    (s.latchFlags v).record = s.record := rfl
@[simp] theorem State.latchFlags_pres (v : Byte) :
    (s.latchFlags v).pres = s.pres := rfl
@[simp] theorem State.latchFlags_val (v : Byte) :
    (s.latchFlags v).val = s.val := rfl
@[simp] theorem State.latchFlags_result (v : Byte) :
    (s.latchFlags v).result = s.result := rfl
@[simp] theorem State.latchFlags_errcode (v : Byte) :
    (s.latchFlags v).errcode = s.errcode := rfl
@[simp] theorem State.latchFlags_phase (v : Byte) :
    (s.latchFlags v).phase = s.phase := rfl
@[simp] theorem State.latchFlags_host (v : Byte) :
    (s.latchFlags v).host = s.host := rfl

/-! ### finishOk -/

@[simp] theorem State.finishOk_seq :
    s.finishOk.seq = s.seq := rfl
@[simp] theorem State.finishOk_portValid :
    s.finishOk.portValid = s.portValid := rfl
@[simp] theorem State.finishOk_port :
    s.finishOk.port = s.port := rfl
@[simp] theorem State.finishOk_cmd :
    s.finishOk.cmd = s.cmd := rfl
@[simp] theorem State.finishOk_offInit :
    s.finishOk.offInit = s.offInit := rfl
@[simp] theorem State.finishOk_off :
    s.finishOk.off = s.off := rfl
@[simp] theorem State.finishOk_flags :
    s.finishOk.flags = s.flags := rfl
@[simp] theorem State.finishOk_record :
    s.finishOk.record = s.record := rfl
@[simp] theorem State.finishOk_pres :
    s.finishOk.pres = s.pres := rfl
@[simp] theorem State.finishOk_val :
    s.finishOk.val = s.val := rfl
@[simp] theorem State.finishOk_result :
    s.finishOk.result = .ok := rfl
@[simp] theorem State.finishOk_errcode :
    s.finishOk.errcode = s.errcode := rfl
@[simp] theorem State.finishOk_phase :
    s.finishOk.phase = .done := rfl
@[simp] theorem State.finishOk_host :
    s.finishOk.host = s.host := rfl

/-! ### finishNotApplicable -/

@[simp] theorem State.finishNotApplicable_seq :
    s.finishNotApplicable.seq = s.seq := rfl
@[simp] theorem State.finishNotApplicable_portValid :
    s.finishNotApplicable.portValid = s.portValid := rfl
@[simp] theorem State.finishNotApplicable_port :
    s.finishNotApplicable.port = s.port := rfl
@[simp] theorem State.finishNotApplicable_cmd :
    s.finishNotApplicable.cmd = s.cmd := rfl
@[simp] theorem State.finishNotApplicable_offInit :
    s.finishNotApplicable.offInit = s.offInit := rfl
@[simp] theorem State.finishNotApplicable_off :
    s.finishNotApplicable.off = s.off := rfl
@[simp] theorem State.finishNotApplicable_flags :
    s.finishNotApplicable.flags = s.flags := rfl
@[simp] theorem State.finishNotApplicable_record :
    s.finishNotApplicable.record = s.record := rfl
@[simp] theorem State.finishNotApplicable_pres :
    s.finishNotApplicable.pres = s.pres := rfl
@[simp] theorem State.finishNotApplicable_val :
    s.finishNotApplicable.val = s.val := rfl
@[simp] theorem State.finishNotApplicable_result :
    s.finishNotApplicable.result = .notApplicable := rfl
@[simp] theorem State.finishNotApplicable_errcode :
    s.finishNotApplicable.errcode = s.errcode := rfl
@[simp] theorem State.finishNotApplicable_phase :
    s.finishNotApplicable.phase = .done := rfl
@[simp] theorem State.finishNotApplicable_host :
    s.finishNotApplicable.host = s.host := rfl

/-! ### finishValue -/

@[simp] theorem State.finishValue_seq (v : Value) :
    (s.finishValue v).seq = s.seq := rfl
@[simp] theorem State.finishValue_portValid (v : Value) :
    (s.finishValue v).portValid = s.portValid := rfl
@[simp] theorem State.finishValue_port (v : Value) :
    (s.finishValue v).port = s.port := rfl
@[simp] theorem State.finishValue_cmd (v : Value) :
    (s.finishValue v).cmd = s.cmd := rfl
@[simp] theorem State.finishValue_offInit (v : Value) :
    (s.finishValue v).offInit = s.offInit := rfl
@[simp] theorem State.finishValue_off (v : Value) :
    (s.finishValue v).off = s.off := rfl
@[simp] theorem State.finishValue_flags (v : Value) :
    (s.finishValue v).flags = s.flags := rfl
@[simp] theorem State.finishValue_record (v : Value) :
    (s.finishValue v).record = s.record := rfl
@[simp] theorem State.finishValue_pres (v : Value) :
    (s.finishValue v).pres = s.pres := rfl
@[simp] theorem State.finishValue_val (v : Value) :
    (s.finishValue v).val = some v := rfl
@[simp] theorem State.finishValue_result (v : Value) :
    (s.finishValue v).result = .ok := rfl
@[simp] theorem State.finishValue_errcode (v : Value) :
    (s.finishValue v).errcode = s.errcode := rfl
@[simp] theorem State.finishValue_phase (v : Value) :
    (s.finishValue v).phase = .done := rfl
@[simp] theorem State.finishValue_host (v : Value) :
    (s.finishValue v).host = s.host := rfl

/-! ### putVbattery -/

@[simp] theorem State.putVbattery_seq (x : F64) :
    (s.putVbattery x).seq = s.seq := rfl
@[simp] theorem State.putVbattery_portValid (x : F64) :
    (s.putVbattery x).portValid = s.portValid := rfl
@[simp] theorem State.putVbattery_port (x : F64) :
    (s.putVbattery x).port = s.port := rfl
@[simp] theorem State.putVbattery_cmd (x : F64) :
    (s.putVbattery x).cmd = s.cmd := rfl
@[simp] theorem State.putVbattery_offInit (x : F64) :
    (s.putVbattery x).offInit = s.offInit := rfl
@[simp] theorem State.putVbattery_off (x : F64) :
    (s.putVbattery x).off = s.off := rfl
@[simp] theorem State.putVbattery_flags (x : F64) :
    (s.putVbattery x).flags = s.flags := rfl
@[simp] theorem State.putVbattery_record (x : F64) :
    (s.putVbattery x).record = { s.record with vbattery := some x } := rfl
@[simp] theorem State.putVbattery_pres (x : F64) :
    (s.putVbattery x).pres = withPresent s.pres .vbattery := rfl
@[simp] theorem State.putVbattery_val (x : F64) :
    (s.putVbattery x).val = s.val := rfl
@[simp] theorem State.putVbattery_result (x : F64) :
    (s.putVbattery x).result = s.result := rfl
@[simp] theorem State.putVbattery_errcode (x : F64) :
    (s.putVbattery x).errcode = s.errcode := rfl
@[simp] theorem State.putVbattery_phase (x : F64) :
    (s.putVbattery x).phase = s.phase := rfl
@[simp] theorem State.putVbattery_host (x : F64) :
    (s.putVbattery x).host = s.host := rfl

/-! ### putVsystem -/

@[simp] theorem State.putVsystem_seq (x : F64) :
    (s.putVsystem x).seq = s.seq := rfl
@[simp] theorem State.putVsystem_portValid (x : F64) :
    (s.putVsystem x).portValid = s.portValid := rfl
@[simp] theorem State.putVsystem_port (x : F64) :
    (s.putVsystem x).port = s.port := rfl
@[simp] theorem State.putVsystem_cmd (x : F64) :
    (s.putVsystem x).cmd = s.cmd := rfl
@[simp] theorem State.putVsystem_offInit (x : F64) :
    (s.putVsystem x).offInit = s.offInit := rfl
@[simp] theorem State.putVsystem_off (x : F64) :
    (s.putVsystem x).off = s.off := rfl
@[simp] theorem State.putVsystem_flags (x : F64) :
    (s.putVsystem x).flags = s.flags := rfl
@[simp] theorem State.putVsystem_record (x : F64) :
    (s.putVsystem x).record = { s.record with vsystem := some x } := rfl
@[simp] theorem State.putVsystem_pres (x : F64) :
    (s.putVsystem x).pres = withPresent s.pres .vsystem := rfl
@[simp] theorem State.putVsystem_val (x : F64) :
    (s.putVsystem x).val = s.val := rfl
@[simp] theorem State.putVsystem_result (x : F64) :
    (s.putVsystem x).result = s.result := rfl
@[simp] theorem State.putVsystem_errcode (x : F64) :
    (s.putVsystem x).errcode = s.errcode := rfl
@[simp] theorem State.putVsystem_phase (x : F64) :
    (s.putVsystem x).phase = s.phase := rfl
@[simp] theorem State.putVsystem_host (x : F64) :
    (s.putVsystem x).host = s.host := rfl

/-! ### putBoot -/

@[simp] theorem State.putBoot_seq (b : Byte) :
    (s.putBoot b).seq = s.seq := rfl
@[simp] theorem State.putBoot_portValid (b : Byte) :
    (s.putBoot b).portValid = s.portValid := rfl
@[simp] theorem State.putBoot_port (b : Byte) :
    (s.putBoot b).port = s.port := rfl
@[simp] theorem State.putBoot_cmd (b : Byte) :
    (s.putBoot b).cmd = s.cmd := rfl
@[simp] theorem State.putBoot_offInit (b : Byte) :
    (s.putBoot b).offInit = s.offInit := rfl
@[simp] theorem State.putBoot_off (b : Byte) :
    (s.putBoot b).off = s.off := rfl
@[simp] theorem State.putBoot_flags (b : Byte) :
    (s.putBoot b).flags = s.flags := rfl
@[simp] theorem State.putBoot_record (b : Byte) :
    (s.putBoot b).record = { s.record with boot := some b } := rfl
@[simp] theorem State.putBoot_pres (b : Byte) :
    (s.putBoot b).pres = withPresent s.pres .boot := rfl
@[simp] theorem State.putBoot_val (b : Byte) :
    (s.putBoot b).val = s.val := rfl
@[simp] theorem State.putBoot_result (b : Byte) :
    (s.putBoot b).result = s.result := rfl
@[simp] theorem State.putBoot_errcode (b : Byte) :
    (s.putBoot b).errcode = s.errcode := rfl
@[simp] theorem State.putBoot_phase (b : Byte) :
    (s.putBoot b).phase = s.phase := rfl
@[simp] theorem State.putBoot_host (b : Byte) :
    (s.putBoot b).host = s.host := rfl

/-! ### putTemperatureC -/

@[simp] theorem State.putTemperatureC_seq (x : F64) :
    (s.putTemperatureC x).seq = s.seq := rfl
@[simp] theorem State.putTemperatureC_portValid (x : F64) :
    (s.putTemperatureC x).portValid = s.portValid := rfl
@[simp] theorem State.putTemperatureC_port (x : F64) :
    (s.putTemperatureC x).port = s.port := rfl
@[simp] theorem State.putTemperatureC_cmd (x : F64) :
    (s.putTemperatureC x).cmd = s.cmd := rfl
@[simp] theorem State.putTemperatureC_offInit (x : F64) :
    (s.putTemperatureC x).offInit = s.offInit := rfl
@[simp] theorem State.putTemperatureC_off (x : F64) :
    (s.putTemperatureC x).off = s.off := rfl
@[simp] theorem State.putTemperatureC_flags (x : F64) :
    (s.putTemperatureC x).flags = s.flags := rfl
@[simp] theorem State.putTemperatureC_record (x : F64) :
    (s.putTemperatureC x).record = { s.record with temperatureC := some x } := rfl
@[simp] theorem State.putTemperatureC_pres (x : F64) :
    (s.putTemperatureC x).pres = withPresent s.pres .temperatureC := rfl
@[simp] theorem State.putTemperatureC_val (x : F64) :
    (s.putTemperatureC x).val = s.val := rfl
@[simp] theorem State.putTemperatureC_result (x : F64) :
    (s.putTemperatureC x).result = s.result := rfl
@[simp] theorem State.putTemperatureC_errcode (x : F64) :
    (s.putTemperatureC x).errcode = s.errcode := rfl
@[simp] theorem State.putTemperatureC_phase (x : F64) :
    (s.putTemperatureC x).phase = s.phase := rfl
@[simp] theorem State.putTemperatureC_host (x : F64) :
    (s.putTemperatureC x).host = s.host := rfl

/-! ### putDifferentialPressure -/

@[simp] theorem State.putDifferentialPressure_seq (x : F64) :
    (s.putDifferentialPressure x).seq = s.seq := rfl
@[simp] theorem State.putDifferentialPressure_portValid (x : F64) :
    (s.putDifferentialPressure x).portValid = s.portValid := rfl
@[simp] theorem State.putDifferentialPressure_port (x : F64) :
    (s.putDifferentialPressure x).port = s.port := rfl
@[simp] theorem State.putDifferentialPressure_cmd (x : F64) :
    (s.putDifferentialPressure x).cmd = s.cmd := rfl
@[simp] theorem State.putDifferentialPressure_offInit (x : F64) :
    (s.putDifferentialPressure x).offInit = s.offInit := rfl
@[simp] theorem State.putDifferentialPressure_off (x : F64) :
    (s.putDifferentialPressure x).off = s.off := rfl
@[simp] theorem State.putDifferentialPressure_flags (x : F64) :
    (s.putDifferentialPressure x).flags = s.flags := rfl
@[simp] theorem State.putDifferentialPressure_record (x : F64) :
    (s.putDifferentialPressure x).record = { s.record with differentialPressure := some x } := rfl
@[simp] theorem State.putDifferentialPressure_pres (x : F64) :
    (s.putDifferentialPressure x).pres = withPresent s.pres .differentialPressure := rfl
@[simp] theorem State.putDifferentialPressure_val (x : F64) :
    (s.putDifferentialPressure x).val = s.val := rfl
@[simp] theorem State.putDifferentialPressure_result (x : F64) :
    (s.putDifferentialPressure x).result = s.result := rfl
@[simp] theorem State.putDifferentialPressure_errcode (x : F64) :
    (s.putDifferentialPressure x).errcode = s.errcode := rfl
@[simp] theorem State.putDifferentialPressure_phase (x : F64) :
    (s.putDifferentialPressure x).phase = s.phase := rfl
@[simp] theorem State.putDifferentialPressure_host (x : F64) :
    (s.putDifferentialPressure x).host = s.host := rfl

/-! ### faultEntry -/

@[simp] theorem State.faultEntry_seq :
    s.faultEntry.seq = s.seq := rfl
@[simp] theorem State.faultEntry_portValid :
    s.faultEntry.portValid = s.portValid := rfl
@[simp] theorem State.faultEntry_port :
    s.faultEntry.port = s.port := rfl
@[simp] theorem State.faultEntry_cmd :
    s.faultEntry.cmd = s.cmd := rfl
@[simp] theorem State.faultEntry_offInit :
    s.faultEntry.offInit = s.offInit := rfl
@[simp] theorem State.faultEntry_off :
    s.faultEntry.off = s.off := rfl
@[simp] theorem State.faultEntry_flags :
    s.faultEntry.flags = s.flags := rfl
@[simp] theorem State.faultEntry_record :
    s.faultEntry.record = Record.empty := rfl
@[simp] theorem State.faultEntry_pres :
    s.faultEntry.pres = 0#5 := rfl
@[simp] theorem State.faultEntry_val :
    s.faultEntry.val = none := rfl
@[simp] theorem State.faultEntry_result :
    s.faultEntry.result = .error := rfl
@[simp] theorem State.faultEntry_errcode :
    s.faultEntry.errcode = .outOfRange := rfl
@[simp] theorem State.faultEntry_phase :
    s.faultEntry.phase = .done := rfl
@[simp] theorem State.faultEntry_host :
    s.faultEntry.host = s.host := rfl

/-! ### beginPass -/

@[simp] theorem State.beginPass_seq (o : Nat) (p : Phase) :
    (s.beginPass o p).seq = s.seq := rfl
@[simp] theorem State.beginPass_portValid (o : Nat) (p : Phase) :
    (s.beginPass o p).portValid = s.portValid := rfl
@[simp] theorem State.beginPass_port (o : Nat) (p : Phase) :
    (s.beginPass o p).port = s.port := rfl
@[simp] theorem State.beginPass_cmd (o : Nat) (p : Phase) :
    (s.beginPass o p).cmd = s.cmd := rfl
@[simp] theorem State.beginPass_offInit (o : Nat) (p : Phase) :
    (s.beginPass o p).offInit = s.offInit := rfl
@[simp] theorem State.beginPass_off (o : Nat) (p : Phase) :
    (s.beginPass o p).off = o := rfl
@[simp] theorem State.beginPass_flags (o : Nat) (p : Phase) :
    (s.beginPass o p).flags = 0x00#8 := rfl
@[simp] theorem State.beginPass_record (o : Nat) (p : Phase) :
    (s.beginPass o p).record = Record.empty := rfl
@[simp] theorem State.beginPass_pres (o : Nat) (p : Phase) :
    (s.beginPass o p).pres = 0#5 := rfl
@[simp] theorem State.beginPass_val (o : Nat) (p : Phase) :
    (s.beginPass o p).val = none := rfl
@[simp] theorem State.beginPass_result (o : Nat) (p : Phase) :
    (s.beginPass o p).result = .none := rfl
@[simp] theorem State.beginPass_errcode (o : Nat) (p : Phase) :
    (s.beginPass o p).errcode = .none := rfl
@[simp] theorem State.beginPass_phase (o : Nat) (p : Phase) :
    (s.beginPass o p).phase = p := rfl
@[simp] theorem State.beginPass_host (o : Nat) (p : Phase) :
    (s.beginPass o p).host = s.host := rfl

/-! ### resetRegisters -/

@[simp] theorem State.resetRegisters_seq :
    s.resetRegisters.seq = s.seq := rfl
@[simp] theorem State.resetRegisters_portValid :
    s.resetRegisters.portValid = s.portValid := rfl
@[simp] theorem State.resetRegisters_port :
    s.resetRegisters.port = s.port := rfl
@[simp] theorem State.resetRegisters_cmd :
    s.resetRegisters.cmd = s.cmd := rfl
@[simp] theorem State.resetRegisters_offInit :
    s.resetRegisters.offInit = s.offInit := rfl
@[simp] theorem State.resetRegisters_off :
    s.resetRegisters.off = 0 := rfl
@[simp] theorem State.resetRegisters_flags :
    s.resetRegisters.flags = 0x00#8 := rfl
@[simp] theorem State.resetRegisters_record :
    s.resetRegisters.record = Record.empty := rfl
@[simp] theorem State.resetRegisters_pres :
    s.resetRegisters.pres = 0#5 := rfl
@[simp] theorem State.resetRegisters_val :
    s.resetRegisters.val = none := rfl
@[simp] theorem State.resetRegisters_result :
    s.resetRegisters.result = .none := rfl
@[simp] theorem State.resetRegisters_errcode :
    s.resetRegisters.errcode = .none := rfl
@[simp] theorem State.resetRegisters_phase :
    s.resetRegisters.phase = .idle := rfl
@[simp] theorem State.resetRegisters_host :
    s.resetRegisters.host = s.host := rfl

/-! ### setInputs -/

@[simp] theorem State.setInputs_seq (bs : List Byte) (v : Bool) (p : Nat) (c : BitVec 4) (o : Nat) :
    (s.setInputs bs v p c o).seq = Memory.ofBytes bs := rfl
@[simp] theorem State.setInputs_portValid (bs : List Byte) (v : Bool) (p : Nat) (c : BitVec 4) (o : Nat) :
    (s.setInputs bs v p c o).portValid = v := rfl
@[simp] theorem State.setInputs_port (bs : List Byte) (v : Bool) (p : Nat) (c : BitVec 4) (o : Nat) :
    (s.setInputs bs v p c o).port = p := rfl
@[simp] theorem State.setInputs_cmd (bs : List Byte) (v : Bool) (p : Nat) (c : BitVec 4) (o : Nat) :
    (s.setInputs bs v p c o).cmd = c := rfl
@[simp] theorem State.setInputs_offInit (bs : List Byte) (v : Bool) (p : Nat) (c : BitVec 4) (o : Nat) :
    (s.setInputs bs v p c o).offInit = o := rfl
@[simp] theorem State.setInputs_off (bs : List Byte) (v : Bool) (p : Nat) (c : BitVec 4) (o : Nat) :
    (s.setInputs bs v p c o).off = s.off := rfl
@[simp] theorem State.setInputs_flags (bs : List Byte) (v : Bool) (p : Nat) (c : BitVec 4) (o : Nat) :
    (s.setInputs bs v p c o).flags = s.flags := rfl
@[simp] theorem State.setInputs_record (bs : List Byte) (v : Bool) (p : Nat) (c : BitVec 4) (o : Nat) :
    (s.setInputs bs v p c o).record = s.record := rfl
@[simp] theorem State.setInputs_pres (bs : List Byte) (v : Bool) (p : Nat) (c : BitVec 4) (o : Nat) :
    (s.setInputs bs v p c o).pres = s.pres := rfl
@[simp] theorem State.setInputs_val (bs : List Byte) (v : Bool) (p : Nat) (c : BitVec 4) (o : Nat) :
    (s.setInputs bs v p c o).val = s.val := rfl
@[simp] theorem State.setInputs_result (bs : List Byte) (v : Bool) (p : Nat) (c : BitVec 4) (o : Nat) :
    (s.setInputs bs v p c o).result = s.result := rfl
@[simp] theorem State.setInputs_errcode (bs : List Byte) (v : Bool) (p : Nat) (c : BitVec 4) (o : Nat) :
    (s.setInputs bs v p c o).errcode = s.errcode := rfl
@[simp] theorem State.setInputs_phase (bs : List Byte) (v : Bool) (p : Nat) (c : BitVec 4) (o : Nat) :
    (s.setInputs bs v p c o).phase = s.phase := rfl
@[simp] theorem State.setInputs_host (bs : List Byte) (v : Bool) (p : Nat) (c : BitVec 4) (o : Nat) :
    (s.setInputs bs v p c o).host = s.host := rfl

/-! ### withHost -/

@[simp] theorem State.withHost_seq (ms : List HostMove) :
    (s.withHost ms).seq = s.seq := rfl
@[simp] theorem State.withHost_portValid (ms : List HostMove) :
    (s.withHost ms).portValid = s.portValid := rfl
@[simp] theorem State.withHost_port (ms : List HostMove) :
    (s.withHost ms).port = s.port := rfl
@[simp] theorem State.withHost_cmd (ms : List HostMove) :
    (s.withHost ms).cmd = s.cmd := rfl
@[simp] theorem State.withHost_offInit (ms : List HostMove) :
    (s.withHost ms).offInit = s.offInit := rfl
@[simp] theorem State.withHost_off (ms : List HostMove) :
    (s.withHost ms).off = s.off := rfl
@[simp] theorem State.withHost_flags (ms : List HostMove) :
    (s.withHost ms).flags = s.flags := rfl
@[simp] theorem State.withHost_record (ms : List HostMove) :
    (s.withHost ms).record = s.record := rfl
@[simp] theorem State.withHost_pres (ms : List HostMove) :
    (s.withHost ms).pres = s.pres := rfl
@[simp] theorem State.withHost_val (ms : List HostMove) :
    (s.withHost ms).val = s.val := rfl
@[simp] theorem State.withHost_result (ms : List HostMove) :
    (s.withHost ms).result = s.result := rfl
@[simp] theorem State.withHost_errcode (ms : List HostMove) :
    (s.withHost ms).errcode = s.errcode := rfl
@[simp] theorem State.withHost_phase (ms : List HostMove) :
    (s.withHost ms).phase = s.phase := rfl
@[simp] theorem State.withHost_host (ms : List HostMove) :
    (s.withHost ms).host = ms := rfl

end Sys2Proof.Machine
end

