-- ==== Sys2Proof/Laws/Memory.lean ====
section
/-! SUPPORT. The ByteSequence: the canonical form holds of everything the model builds, and what the reads say. -/

namespace Sys2Proof.Machine

theorem cellsOk_cellsFrom (bytes : List Byte) (a len : Nat) (h : a + bytes.length ≤ len) :
    ∀ lo, lo ≤ a → cellsOk lo len (cellsFrom a bytes) = true := by
  induction bytes generalizing a with
  | nil => intro lo _; rfl
  | cons b rest ih =>
    intro lo hlo
    simp only [List.length_cons] at h
    simp only [cellsFrom]
    split
    · exact ih (a + 1) (by omega) lo (by omega)
    · rename_i hb
      simp only [cellsOk, Bool.and_eq_true, decide_eq_true_eq]
      exact ⟨⟨⟨hlo, by omega⟩, hb⟩, ih (a + 1) (by omega) (a + 1) (by omega)⟩

/-- The bytes the host supplies are held in canonical form. -/
theorem Memory.ofBytes_wf (bytes : List Byte) : (Memory.ofBytes bytes).wf = true :=
  cellsOk_cellsFrom bytes 0 bytes.length (by omega) 0 (by omega)

/-- The memory after reset is in canonical form. -/
theorem State.reset_seq_wf : State.reset.seq.wf = true := rfl

/-- Setting the inputs leaves a memory in canonical form, whatever was there. -/
theorem State.setInputs_seq_wf (s : State) (bs : List Byte) (v : Bool) (p : Nat) (c : BitVec 4) (o : Nat) :
    (s.setInputs bs v p c o).seq.wf = true := Memory.ofBytes_wf bs

@[simp] theorem Memory.ofBytes_len (bytes : List Byte) : (Memory.ofBytes bytes).len = bytes.length := rfl

/-- An offset below the first cell's is not listed. -/
theorem lookupCell_cellsFrom_below (bytes : List Byte) (a x : Nat) (h : x < a) :
    lookupCell (cellsFrom a bytes) x = unlistedByte := by
  induction bytes generalizing a with
  | nil => rfl
  | cons b rest ih =>
    simp only [cellsFrom]
    split
    · exact ih (a + 1) (by omega)
    · simp only [lookupCell]
      rw [if_neg (by omega), ih (a + 1) (by omega)]

/-- A one-byte read answers exactly below LEN. -/
theorem Memory.read8_eq_some (m : Memory) (a : Nat) (v : Byte) :
    m.read8 a = some v ↔ a + 1 ≤ m.len ∧ v = m.byte a := by
  unfold Memory.read8
  split <;> simp_all [eq_comm]

theorem Memory.read8_eq_none (m : Memory) (a : Nat) : m.read8 a = none ↔ m.len < a + 1 := by
  unfold Memory.read8
  split <;> simp_all

/-- A two-byte read answers exactly where both bytes are below LEN. -/
theorem Memory.read16_eq_some (m : Memory) (a : Nat) (v : Raw) :
    m.read16 a = some v ↔ a + 2 ≤ m.len ∧ v = rawOfBytes (m.byte a) (m.byte (a + 1)) := by
  unfold Memory.read16
  split <;> simp_all [eq_comm]

theorem Memory.read16_eq_none (m : Memory) (a : Nat) : m.read16 a = none ↔ m.len < a + 2 := by
  unfold Memory.read16
  split <;> simp_all

/-- The big-endian word is the high byte times 256 plus the low byte. -/
theorem rawOfBytes_toNat (high low : Byte) :
    (rawOfBytes high low).toNat = high.toNat * 256 + low.toNat := by
  unfold rawOfBytes
  have hl : low.toNat < 256 := low.isLt
  rw [BitVec.toNat_append, Nat.shiftLeft_eq,
    show high.toNat * 2 ^ 8 = 2 ^ 8 * high.toNat from Nat.mul_comm _ _,
    ← Nat.two_pow_add_eq_or_of_lt hl]
  omega

end Sys2Proof.Machine
end

