-- ==== Sys2Proof/Laws/Ops.lean ====
section
/-! SUPPORT. What each shared operation can do, said once: a read answers or faults, and with it the whole operation; and
the values the two-byte formats are read as. -/

namespace Sys2Proof.Machine

/-- READU8 answers exactly when the byte is below LEN (40_cursor_reads.md R69). -/
theorem State.readU8_fits (s : State) (h : s.off + 1 ≤ s.seq.len) :
    s.readU8 = some (s.seq.byte s.off, s.advance 1) := by
  simp [State.readU8, Memory.read8, h]

theorem State.readU8_missing (s : State) (h : s.seq.len < s.off + 1) : s.readU8 = none := by
  simp [State.readU8, (Memory.read8_eq_none _ _).2 h]

/-- READU16 answers exactly when both bytes are below LEN (40_cursor_reads.md R70). -/
theorem State.readU16_fits (s : State) (h : s.off + 2 ≤ s.seq.len) :
    s.readU16 = some (rawOfBytes (s.seq.byte s.off) (s.seq.byte (s.off + 1)), s.advance 2) := by
  simp [State.readU16, Memory.read16, h]

theorem State.readU16_missing (s : State) (h : s.seq.len < s.off + 2) : s.readU16 = none := by
  simp [State.readU16, (Memory.read16_eq_none _ _).2 h]

/-- A primitive command of width 1 either ends with the value of the byte at OFF or takes fault entry. -/
theorem primitive8_cases (value : Byte → Value) (s : State) :
    (s.off + 1 ≤ s.seq.len ∧ primitive8 value s = (s.advance 1).finishValue (value (s.seq.byte s.off))) ∨
      (s.seq.len < s.off + 1 ∧ primitive8 value s = s.faultEntry) := by
  rcases Nat.lt_or_ge s.seq.len (s.off + 1) with h | h
  · exact .inr ⟨h, by simp [primitive8, State.readU8_missing s h]⟩
  · exact .inl ⟨h, by simp [primitive8, State.readU8_fits s h]⟩

/-- A primitive command of width 2 either ends with the value of the two bytes at OFF or takes fault entry. -/
theorem primitive16_cases (value : Raw → Value) (s : State) :
    (s.off + 2 ≤ s.seq.len ∧ primitive16 value s =
        (s.advance 2).finishValue (value (rawOfBytes (s.seq.byte s.off) (s.seq.byte (s.off + 1))))) ∨
      (s.seq.len < s.off + 2 ∧ primitive16 value s = s.faultEntry) := by
  rcases Nat.lt_or_ge s.seq.len (s.off + 2) with h | h
  · exact .inr ⟨h, by simp [primitive16, State.readU16_missing s h]⟩
  · exact .inl ⟨h, by simp [primitive16, State.readU16_fits s h]⟩

/-- A field-select operation of width 1 either writes its slot and moves to the next phase or takes fault entry. -/
theorem select8_cases (i : Slot) (put : State → Byte → State) (s : State) :
    (s.off + 1 ≤ s.seq.len ∧ select8 i put s = (put (s.advance 1) (s.seq.byte s.off)).nextField i) ∨
      (s.seq.len < s.off + 1 ∧ select8 i put s = s.faultEntry) := by
  rcases Nat.lt_or_ge s.seq.len (s.off + 1) with h | h
  · exact .inr ⟨h, by simp [select8, State.readU8_missing s h]⟩
  · exact .inl ⟨h, by simp [select8, State.readU8_fits s h]⟩

/-- A field-select operation of width 2 either writes its slot and moves to the next phase or takes fault entry. -/
theorem select16_cases (i : Slot) (put : State → Raw → State) (s : State) :
    (s.off + 2 ≤ s.seq.len ∧ select16 i put s =
        (put (s.advance 2) (rawOfBytes (s.seq.byte s.off) (s.seq.byte (s.off + 1)))).nextField i) ∨
      (s.seq.len < s.off + 2 ∧ select16 i put s = s.faultEntry) := by
  rcases Nat.lt_or_ge s.seq.len (s.off + 2) with h | h
  · exact .inr ⟨h, by simp [select16, State.readU16_missing s h]⟩
  · exact .inl ⟨h, by simp [select16, State.readU16_fits s h]⟩

/-- Phase ENV either ends the pass as not applicable or initialises the cursor. -/
theorem envelopePhase_cases (s : State) :
    envelopePhase s = s.finishNotApplicable ∨
      (portAccepted s = true ∧ s.seq.len ≠ 0 ∧ s.seq.byte 0 = formatByte ∧
        envelopePhase s = s.initCursor.enter .bmp) := by
  unfold envelopePhase decodeEnv
  split
  · split
    · exact .inl rfl
    · by_cases hb : s.seq.byte 0 = formatByte
      · exact .inr ⟨‹_›, ‹_›, hb, by simp [hb]⟩
      · exact .inl (by simp [hb])
  · exact .inl rfl

/-- Phase BMP either latches the byte at OFF and goes to slot 0 or takes fault entry. -/
theorem bitmapPhase_cases (s : State) :
    (s.off + 1 ≤ s.seq.len ∧
        bitmapPhase s = ((s.advance 1).latchFlags (s.seq.byte s.off)).enter (.field .vbattery)) ∨
      (s.seq.len < s.off + 1 ∧ bitmapPhase s = s.faultEntry) := by
  rcases Nat.lt_or_ge s.seq.len (s.off + 1) with h | h
  · exact .inr ⟨h, by simp [bitmapPhase, State.readU8_missing s h]⟩
  · exact .inl ⟨h, by simp [bitmapPhase, State.readU8_fits s h]⟩

/-- A field phase runs the slot's operation or skips to the next slot. -/
theorem fieldPhase_cases (i : Slot) (s : State) :
    (i.selected s.flags = true ∧ fieldPhase i s = selectField i s) ∨
      (i.selected s.flags = false ∧ fieldPhase i s = s.nextField i) := by
  unfold fieldPhase decodeSel
  cases h : i.selected s.flags
  · exact .inr ⟨rfl, by simp⟩
  · exact .inl ⟨rfl, by simp⟩

/-- `exec` of a slot's operation is the operation of that slot. -/
theorem exec_slot_instr (i : Slot) (s : State) : exec i.instr s = .next (selectField i s) := by
  cases i <;> rfl

/-- Every operation answers a next state: OutOfRange is an exception that is taken, not a stop. -/
theorem exec_next (i : Instr) (s : State) : ∃ t, exec i s = .next t := by
  cases i <;> exact ⟨_, rfl⟩

/-- A field step in terms of `fieldPhase`. -/
theorem phaseStep_field (i : Slot) (s : State) (h : s.phase = .field i) :
    phaseStep s = .next (fieldPhase i s) := by
  unfold phaseStep fieldPhase decodeSel
  rw [h]
  cases hs : i.selected s.flags
  · simp [hs]
  · simp [hs, exec_slot_instr]

end Sys2Proof.Machine
end

