-- ==== Sys2Proof/Laws/PerInstr.lean ====
section
/-! SUPPORT. The per-instruction family: an operation is well formed and its encoding is a well-formed word of its format
(30_encoding.md R50, R51, R60, R61). -/

namespace Sys2Proof.Laws.EncodedForm

/-- The operation and its encoding are well formed. -/
def Statement (i : Instr) : Prop := i.wellFormed = true ∧ (encode i).wellFormed = true

theorem decode : Statement .decode := by unfold Statement; decide
theorem selVbat : Statement .selVbat := by unfold Statement; decide
theorem selVsys : Statement .selVsys := by unfold Statement; decide
theorem selBoot : Statement .selBoot := by unfold Statement; decide
theorem selTempc : Statement .selTempc := by unfold Statement; decide
theorem selDp : Statement .selDp := by unfold Statement; decide
theorem readu8 : Statement .readu8 := by unfold Statement; decide
theorem readu16 : Statement .readu16 := by unfold Statement; decide
theorem decu16 : Statement .decu16 := by unfold Statement; decide
theorem deci16 : Statement .deci16 := by unfold Statement; decide
theorem decuflt16 : Statement .decuflt16 := by unfold Statement; decide
theorem decsflt16 : Statement .decsflt16 := by unfold Statement; decide
theorem decdp : Statement .decdp := by unfold Statement; decide
theorem decvolt : Statement .decvolt := by unfold Statement; decide
theorem dectempc : Statement .dectempc := by unfold Statement; decide

end Sys2Proof.Laws.EncodedForm
end

