-- ==== Sys2Proof/Laws/Step.lean ====
section
/-! SUPPORT. What one step can do, said once: the host's move, or the row of the phase (44_message_decoder.md R110). -/

namespace Sys2Proof.Machine

/-- A step that answers a next state is RESET, the host's setting of the inputs, an accepted START, or the row of the
phase; the host's move is consumed. -/
theorem step_cases {s t : State} (h : step s = .next t) :
    (∃ rest, s.host = .reset :: rest ∧ t = (s.withHost rest).resetRegisters) ∨
      (∃ bytes portValid port cmd offInit rest, s.host = .supply bytes portValid port cmd offInit :: rest ∧
        s.phase.busy = false ∧ t = (s.withHost rest).setInputs bytes portValid port cmd offInit) ∨
      (∃ rest, s.host = .start :: rest ∧ s.phase.busy = false ∧ t = acceptStart (s.withHost rest)) ∨
      ((s.host = [] ∨ (∃ rest, s.host = .wait :: rest) ∨ ∃ rest, s.host = .start :: rest ∧ s.phase.busy = true) ∧
        phaseStep (s.withHost s.host.tail) = .next t) := by
  unfold step machineStep at h
  rcases hh : s.host with _ | ⟨move, rest⟩
  · rw [hh] at h
    have hs : s.withHost [] = s := by rw [← hh]; rfl
    exact .inr (.inr (.inr ⟨.inl rfl, by simpa [hs] using h⟩))
  · rw [hh] at h
    cases move with
    | wait => exact .inr (.inr (.inr ⟨.inr (.inl ⟨rest, rfl⟩), h⟩))
    | reset =>
      simp only [hostStep, Host.Outcome.next.injEq] at h
      exact .inl ⟨rest, rfl, h.symm⟩
    | start =>
      simp only [hostStep, State.withHost_phase] at h
      cases hb : s.phase.busy with
      | true => exact .inr (.inr (.inr ⟨.inr (.inr ⟨rest, rfl, rfl⟩), by simpa [hb] using h⟩))
      | false => exact .inr (.inr (.inl ⟨rest, rfl, rfl, by simpa [hb] using h.symm⟩))
    | supply bytes portValid port cmd offInit =>
      simp only [hostStep, State.withHost_phase] at h
      cases hb : s.phase.busy with
      | true => simp [hb] at h
      | false => exact .inr (.inl ⟨bytes, portValid, port, cmd, offInit, rest, rfl, rfl, by simpa [hb] using h.symm⟩)

/-- The row of the phase, where it answers a next state. -/
theorem phaseStep_cases {s t : State} (h : phaseStep s = .next t) :
    ((s.phase = .idle ∨ s.phase = .done) ∧ t = s) ∨ (s.phase = .env ∧ t = envelopePhase s) ∨
      (s.phase = .bmp ∧ t = bitmapPhase s) ∨ (∃ i, s.phase = .field i ∧ t = fieldPhase i s) ∨
      (s.phase = .prim ∧ ∃ i, decodeCmd s.cmd = .ok i ∧ i ≠ .decode ∧ exec i s = .next t) := by
  cases hp : s.phase with
  | field i =>
    rw [phaseStep_field i s hp, Host.Outcome.next.injEq] at h
    exact .inr (.inr (.inr (.inl ⟨i, rfl, h.symm⟩)))
  | prim =>
    simp only [phaseStep, hp, primPhase] at h
    split at h
    · cases h
    · cases h
    · rename_i i hne hi
      exact .inr (.inr (.inr (.inr ⟨rfl, i, hi, fun he => hne he, h⟩)))
  | idle => simp only [phaseStep, hp, Host.Outcome.next.injEq] at h; exact .inl ⟨.inl rfl, h.symm⟩
  | done => simp only [phaseStep, hp, Host.Outcome.next.injEq] at h; exact .inl ⟨.inr rfl, h.symm⟩
  | env => simp only [phaseStep, hp, Host.Outcome.next.injEq] at h; exact .inr (.inl ⟨rfl, h.symm⟩)
  | bmp => simp only [phaseStep, hp, Host.Outcome.next.injEq] at h; exact .inr (.inr (.inl ⟨rfl, h.symm⟩))

/-- The operations a command code other than 0x0 selects are the primitive commands, each with its width. -/
theorem primitiveWidth_of_decodeCmd {code : BitVec 4} {i : Instr} (h : decodeCmd code = .ok i) (hne : i ≠ .decode) :
    primitiveWidth i = some 1 ∧ i = .readu8 ∨ primitiveWidth i = some 2 := by
  unfold decodeCmd at h
  split at h <;> cases h
  · exact absurd rfl hne
  · exact .inl ⟨rfl, rfl⟩
  all_goals exact .inr rfl

end Sys2Proof.Machine
end

