-- ==== Sys2Proof/Tests/Slice0.lean ====
section
/-! SUPPORT. Tests of the model: the refusals of WellFormed, words of every format written out from 30_encoding.md, vectors of
95_test_vectors.md run for ONE step, and for every statement with hypotheses a witness that meets them. -/

namespace Sys2Proof.Tests

open Sys2Proof.Machine

/-! ### Helpers -/

/-- The next state, if there is one. -/
def nextOf : Host.Outcome State Fault Refusal → Option State
  | .next t => some t
  | .fault _ => none
  | .refused _ => none

/-- A primitive command right after its START. -/
def primState (bytes : List Byte) (code : BitVec 4) (off : Nat) : State :=
  { State.reset with seq := Memory.ofBytes bytes, cmd := code, offInit := off, off := off, phase := .prim }

/-- A message right after START, on port 1. -/
def envState (bytes : List Byte) : State :=
  { State.reset with seq := Memory.ofBytes bytes, portValid := true, port := 1, phase := .env }

/-- A message at the phase of a slot, its bitmap latched. -/
def fieldState (bytes : List Byte) (i : Slot) (off : Nat) : State :=
  { State.reset with seq := Memory.ofBytes bytes, phase := .field i, off := off, flags := bytes.getD 1 0#8 }

/-- What one step makes of VAL, OFF and RESULT. -/
def valAfter (s : State) : Option (Option Value × Nat × ResultTag) :=
  (nextOf (step s)).map fun t => (t.val, t.off, t.result)

/-- What one step makes of the record, PRES and OFF. -/
def recordAfter (s : State) : Option (Record × BitVec 5 × Nat) :=
  (nextOf (step s)).map fun t => (t.record, t.pres, t.off)

/-! ### WellFormed refuses (30_encoding.md R50, R51, R63) -/

theorem test_wellFormed_format_mismatch : (CodeWord.env 0x2001#16).wellFormed = false := by decide
theorem test_wellFormed_vbattery_clear : (CodeWord.sel .vbattery 0xFE#8).wellFormed = false := by decide
theorem test_wellFormed_vsystem_clear : (CodeWord.sel .vsystem 0xFD#8).wellFormed = false := by decide
theorem test_wellFormed_boot_clear : (CodeWord.sel .boot 0xFB#8).wellFormed = false := by decide
theorem test_wellFormed_temperature_clear : (CodeWord.sel .temperatureC 0xF7#8).wellFormed = false := by decide
theorem test_wellFormed_pressure_clear : (CodeWord.sel .differentialPressure 0xEF#8).wellFormed = false := by decide
theorem test_wellFormed_reserved_command : (CodeWord.cmd 0xA#4).wellFormed = false := by decide
theorem test_wellFormed_memory_order : (Memory.mk 4 [(2, 1#8), (1, 1#8)]).wf = false := by decide
theorem test_wellFormed_memory_zero : (Memory.mk 4 [(2, 0#8)]).wf = false := by decide
theorem test_wellFormed_memory_bound : (Memory.mk 4 [(4, 1#8)]).wf = false := by decide

/-! ### Every operation's word, written out (30_encoding.md R50, R51, R61) -/

theorem test_word_decode : decode (.env 0b0001111110111111#16) = .ok .decode := by decide
theorem test_word_selVbat : decode (.sel .vbattery 0b11100001#8) = .ok .selVbat := by decide
theorem test_word_selVsys : decode (.sel .vsystem 0b00000010#8) = .ok .selVsys := by decide
theorem test_word_selBoot : decode (.sel .boot 0b00000100#8) = .ok .selBoot := by decide
theorem test_word_selTempc : decode (.sel .temperatureC 0b00001000#8) = .ok .selTempc := by decide
theorem test_word_selDp : decode (.sel .differentialPressure 0b00010000#8) = .ok .selDp := by decide
theorem test_word_readu8 : decode (.cmd 0b0001#4) = .ok .readu8 := by decide
theorem test_word_readu16 : decode (.cmd 0b0010#4) = .ok .readu16 := by decide
theorem test_word_decu16 : decode (.cmd 0b0011#4) = .ok .decu16 := by decide
theorem test_word_deci16 : decode (.cmd 0b0100#4) = .ok .deci16 := by decide
theorem test_word_decuflt16 : decode (.cmd 0b0101#4) = .ok .decuflt16 := by decide
theorem test_word_decsflt16 : decode (.cmd 0b0110#4) = .ok .decsflt16 := by decide
theorem test_word_decdp : decode (.cmd 0b0111#4) = .ok .decdp := by decide
theorem test_word_decvolt : decode (.cmd 0b1000#4) = .ok .decvolt := by decide
theorem test_word_dectempc : decode (.cmd 0b1001#4) = .ok .dectempc := by decide
theorem test_word_command_zero : decode (.cmd 0b0000#4) = .ok .decode := by decide
theorem test_word_reserved : decode (.cmd 0b1111#4) = .error (.reservedCommand 0xF#4) := by decide

/-- The bitmap of 95_test_vectors.md P2, reserved bits 7 and 5 set. -/
theorem test_bitmap_P2 : decodeBitmap 0xAD#8 = [.selVbat, .selBoot, .selTempc] := by decide

/-- Table words (opcode_table.json): 16 bits ENV, 8 bits SEL, 4 bits CMD. -/
theorem test_table_words :
    decodeTableWord 16 0x1F00 = some .decode ∧ decodeTableWord 8 0x10 = some .selDp ∧
      decodeTableWord 4 0x1 = some .readu8 ∧ decodeTableWord 4 0xA = none ∧ decodeTableWord 16 0x2000 = none := by
  decide

/-- A placed word is what the next step runs, after reset: READU8 of a zero byte, SEL.BOOT of a zero byte. -/
theorem test_placed_words :
    valAfter (State.reset.withFetchWord 4 0x1) = some (some (.unsigned 0), 1, .ok) ∧
      recordAfter (State.reset.withFetchWord 8 0x04) =
        some (⟨none, none, some 0#8, none, none⟩, 0b00100#5, 3) := by
  decide

/-! ### Primitive commands (95_test_vectors.md 2.1 to 2.4, P5) -/

theorem test_readu8_unsigned :
    valAfter (primState [0x1F, 0x80, 0xFF, 0x00, 0x01] 0x1#4 1) = some (some (.unsigned 128), 2, .ok) := by decide
theorem test_readu8_past_end :
    valAfter (primState [0x1F, 0x80, 0xFF, 0x00, 0x01] 0x1#4 5) = some (none, 5, .error) := by decide
theorem test_readu16_odd_offset :
    valAfter (primState [0x1F, 0x80, 0xFF, 0x00, 0x01] 0x2#4 1) = some (some (.unsigned 33023), 3, .ok) := by decide
theorem test_readu16_one_byte_left :
    valAfter (primState [0x1F, 0x80, 0xFF, 0x00, 0x01] 0x2#4 4) = some (none, 4, .error) := by decide
theorem test_decu16 :
    valAfter (primState [0xAB, 0xCD] 0x3#4 0) = some (some (.unsigned 43981), 2, .ok) := by decide
theorem test_deci16_most_negative :
    valAfter (primState [0x80, 0x00] 0x4#4 0) = some (some (.signed (-32768)), 2, .ok) := by decide
theorem test_deci16_largest :
    valAfter (primState [0x7F, 0xFF] 0x4#4 0) = some (some (.signed 32767), 2, .ok) := by decide
theorem test_decuflt16_half :
    valAfter (primState [0xF8, 0x00] 0x5#4 0) = some (some (.float 0x3FE0000000000000#64), 2, .ok) := by
  decide +kernel
theorem test_decuflt16_smallest :
    valAfter (primState [0x00, 0x01] 0x5#4 0) = some (some (.float 0x3E40000000000000#64), 2, .ok) := by
  decide +kernel
theorem test_decsflt16_negative_zero :
    valAfter (primState [0x88, 0x00] 0x6#4 0) = some (some (.float 0x8000000000000000#64), 2, .ok) := by
  decide +kernel
theorem test_decsflt16_most_negative :
    valAfter (primState [0xFF, 0xFF] 0x6#4 0) = some (some (.float 0xBFEFFC0000000000#64), 2, .ok) := by
  decide +kernel
/-- The row that tells the two associations apart (92_eei_decisions.md D13). -/
theorem test_decdp_left_to_right :
    valAfter (primState [0x00, 0x17] 0x7#4 0) = some (some (.float 0x3F28888888888889#64), 2, .ok) := by
  decide +kernel
theorem test_decdp_largest :
    valAfter (primState [0x7F, 0xFF] 0x7#4 0) = some (some (.float 0x40810EEEEEEEEEEF#64), 2, .ok) := by
  decide +kernel
theorem test_decvolt_smallest :
    valAfter (primState [0x80, 0x00] 0x8#4 0) = some (some (.float 0xC020000000000000#64), 2, .ok) := by
  decide +kernel
/-- H5 of 95_test_vectors.md: neither the port nor the format byte is checked. -/
theorem test_decvolt_ignores_envelope :
    valAfter { primState [0x20, 0xAA, 0x10, 0x00] 0x8#4 2 with portValid := true, port := 7 } =
      some (some (.float 0x3FF0000000000000#64), 4, .ok) := by decide +kernel
/-- The row that tells division by 200 from multiplication by 0.005 (92_eei_decisions.md D14). -/
theorem test_dectempc_divides :
    valAfter (primState [0x00, 0x23] 0x9#4 0) = some (some (.float 0x3FC6666666666666#64), 2, .ok) := by
  decide +kernel
theorem test_dectempc_smallest :
    valAfter (primState [0x80, 0x00] 0x9#4 0) = some (some (.float 0xC0647AE147AE147B#64), 2, .ok) := by
  decide +kernel

/-! ### Field selects (95_test_vectors.md 2.6, P1, P4) -/

theorem test_selVbat :
    recordAfter (fieldState [0x1F, 0x01, 0x10, 0x00] .vbattery 2) =
      some (⟨some 0x3FF0000000000000#64, none, none, none, none⟩, 0b00001#5, 4) := by decide +kernel
theorem test_selVbat_truncated :
    recordAfter (fieldState [0x1F, 0x01, 0x10] .vbattery 2) = some (Record.empty, 0#5, 2) := by decide
theorem test_selVsys :
    recordAfter (fieldState [0x1F, 0x02, 0x80, 0x00] .vsystem 2) =
      some (⟨none, some 0xC020000000000000#64, none, none, none⟩, 0b00010#5, 4) := by decide +kernel
theorem test_selBoot :
    recordAfter (fieldState [0x1F, 0x04, 0xFF] .boot 2) =
      some (⟨none, none, some 0xFF#8, none, none⟩, 0b00100#5, 3) := by decide
theorem test_selTempc_odd_offset :
    recordAfter (fieldState [0x1F, 0x0C, 0x2A, 0x13, 0x88] .temperatureC 3) =
      some (⟨none, none, none, some 0x4039000000000000#64, none⟩, 0b01000#5, 5) := by decide +kernel
theorem test_selDp_negative_zero :
    recordAfter (fieldState [0x1F, 0x10, 0x80, 0x00] .differentialPressure 2) =
      some (⟨none, none, none, none, some 0x8000000000000000#64⟩, 0b10000#5, 4) := by decide +kernel
theorem test_field_skipped :
    (nextOf (step (fieldState [0x1F, 0x01] .vsystem 2))).map (fun t => (t.phase, t.off)) =
      some (.field .boot, 2) := by decide

/-! ### DECODE (95_test_vectors.md 2.5, 2.7) -/

/-- K7: all bits set, reserved bits too, trailing bytes never read. -/
theorem test_decode_K7 :
    (nextOf (exec .decode (envState
        [0x1F, 0xFF, 0xF0, 0x00, 0x10, 0x00, 0xFF, 0xEC, 0x78, 0xFC, 0x00, 0xAA, 0xBB]))).map
      (fun t => (t.record, t.pres, t.off, t.flags)) =
    some (⟨some 0xBFF0000000000000#64, some 0x3FF0000000000000#64, some 0xFF#8, some 0xC039000000000000#64,
      some 0xC071111111111111#64⟩, 0b11111#5, 11, 0xFF#8) := by decide +kernel
/-- K11: the first field fits, the second does not, and the record is discarded. -/
theorem test_decode_K11 :
    (nextOf (exec .decode (envState [0x1F, 0x03, 0x10, 0x00, 0x0D]))).map
      (fun t => (t.result, t.record, t.pres, t.off)) = some (.error, Record.empty, 0#5, 4) := by decide +kernel
theorem test_env_missing_format :
    (nextOf (step (envState []))).map (fun t => (t.result, t.phase, t.off)) =
      some (.notApplicable, .done, 0) := by decide
theorem test_env_passes :
    (nextOf (step (envState [0x1F]))).map (fun t => (t.result, t.phase, t.off)) = some (.none, .bmp, 1) := by decide

/-! ### Witnesses: for every statement with hypotheses, states and operands that meet them -/

theorem witness_ResetEventRestoresEveryRegister :
    { envState [0x1F] with host := [.reset, .wait] }.host = .reset :: [.wait] := by decide
theorem witness_StartBeginsAFreshPass_message :
    { State.reset with host := [HostMove.start] }.host = .start :: [] ∧
      betweenPasses { State.reset with host := [HostMove.start] } ∧
      { State.reset with host := [HostMove.start] }.cmd.toNat < 10 := by unfold betweenPasses; decide
theorem witness_StartBeginsAFreshPass_primitive :
    { State.reset with host := [HostMove.start], cmd := 9#4 }.host = .start :: [] ∧
      betweenPasses { State.reset with host := [HostMove.start], cmd := 9#4 } ∧
      { State.reset with host := [HostMove.start], cmd := 9#4 }.cmd.toNat < 10 := by unfold betweenPasses; decide
theorem witness_ReservedCommandStartChangesNothing :
    { State.reset with host := [HostMove.start], cmd := 10#4 }.host = .start :: [] ∧
      betweenPasses { State.reset with host := [HostMove.start], cmd := 10#4 } ∧
      10 ≤ { State.reset with host := [HostMove.start], cmd := 10#4 }.cmd.toNat := by unfold betweenPasses; decide
theorem witness_StartWhileBusyIsIgnored : (envState [0x1F]).phase.busy = true := by decide
theorem witness_CoreWaitsBetweenPasses :
    betweenPasses State.reset ∧ State.reset.host = [] ∧
      betweenPasses { State.reset with phase := .done, host := [HostMove.wait] } ∧
      { State.reset with phase := .done, host := [HostMove.wait] }.host = .wait :: [] := by
  unfold betweenPasses; decide
theorem witness_HostSetsInputsBetweenPasses :
    betweenPasses { State.reset with host := [HostMove.supply [0x1F] true 1 0#4 0] } ∧
      { State.reset with host := [HostMove.supply [0x1F] true 1 0#4 0] }.host = .supply [0x1F] true 1 0#4 0 :: [] := by
  unfold betweenPasses; decide
theorem witness_InputChangeWhileBusyIsRefused :
    { envState [0x1F] with host := [HostMove.supply [] false 0 0#4 0] }.phase.busy = true ∧
      { envState [0x1F] with host := [HostMove.supply [] false 0 0#4 0] }.host = .supply [] false 0 0#4 0 :: [] := by
  decide
theorem witness_SuppliedBytesAreReadBack :
    ([0xAB#8, 0xCD#8] : List Byte)[0]? = some 0xAB#8 ∧ ([0xAB#8, 0xCD#8] : List Byte)[0 + 1]? = some 0xCD#8 ∧
      ([0xAB#8, 0xCD#8] : List Byte)[1 + 1]? = none := by decide
theorem witness_EqualByteSequencesAreEqualData :
    (Memory.ofBytes [0x1F, 0x00]).wf = true ∧ (Memory.mk 2 [(0, 0x1F#8)]).wf = true ∧
      (Memory.ofBytes [0x1F, 0x00]).len = (Memory.mk 2 [(0, 0x1F#8)]).len ∧
      ∀ a, a < (Memory.ofBytes [0x1F, 0x00]).len →
        (Memory.ofBytes [0x1F, 0x00]).byte a = (Memory.mk 2 [(0, 0x1F#8)]).byte a := by decide
/-- The two sides of the bounds test of a one-byte read: the last byte, and one past it. -/
theorem witness_one_byte_read :
    (primState [0x2A] 1#4 0).off + 1 ≤ (primState [0x2A] 1#4 0).seq.len ∧
      (primState [0x2A] 1#4 1).seq.len < (primState [0x2A] 1#4 1).off + 1 := by decide
/-- The two sides of the bounds test of a two-byte read: the last two bytes, and one byte left. -/
theorem witness_two_byte_read :
    (primState [0x80, 0x00] 6#4 0).off + 2 ≤ (primState [0x80, 0x00] 6#4 0).seq.len ∧
      rawAt (primState [0x80, 0x00] 6#4 0).seq (primState [0x80, 0x00] 6#4 0).off = 0x8000 ∧
      (primState [0x80, 0x00] 6#4 1).seq.len < (primState [0x80, 0x00] 6#4 1).off + 2 := by decide
theorem witness_Deci16RoundTripsAndIsOnto_least : -32768 ≤ (-32768 : Int) ∧ (-32768 : Int) ≤ 32767 := by decide
theorem witness_Deci16RoundTripsAndIsOnto_greatest : -32768 ≤ (32767 : Int) ∧ (32767 : Int) ≤ 32767 := by decide
theorem witness_RoundingIsToNearestTiesToEven :
    0 < 200 ∧ f64Finite (roundNearest false 35 200 0) = true := by decide +kernel
theorem witness_PrimitiveOutOfRangeTakesFaultEntry_one :
    primitiveWidth .readu8 = some 1 ∧ (primState [] 1#4 0).seq.len < (primState [] 1#4 0).off + 1 := by decide
theorem witness_PrimitiveOutOfRangeTakesFaultEntry_two :
    primitiveWidth .dectempc = some 2 ∧ (primState [0xFF] 9#4 0).seq.len < (primState [0xFF] 9#4 0).off + 2 := by
  decide
theorem witness_DecodeIsTheFunctionOfItsInputs :
    (envState [0x1F, 0x01, 0x10, 0x00]).record = ⟨none, none, none, none, none⟩ ∧
      (envState [0x1F, 0x01, 0x10, 0x00]).pres = 0#5 ∧ (envState [0x1F, 0x01, 0x10, 0x00]).val = none := by decide
theorem witness_SevenStepsFromEnvRunDecode :
    (envState [0x1F]).phase = .env ∧ (envState [0x1F]).host = [] := by decide
theorem witness_PhaseMachineAgreesWithTheFunction :
    betweenPasses { envState [0x1F, 0x01] with phase := .done, host := [HostMove.start] } ∧
      { envState [0x1F, 0x01] with phase := .done, host := [HostMove.start] }.cmd = 0#4 ∧
      { envState [0x1F, 0x01] with phase := .done, host := [HostMove.start] }.host = [.start] ∧
      0 < 3 ∧ 3 < decodeSteps { envState [0x1F, 0x01] with phase := .done, host := [HostMove.start] } := by
  unfold betweenPasses; decide
/-- A DECODE started from DONE. -/
theorem witness_EveryAcceptedStartReachesDone_message :
    betweenPasses { State.reset with host := [HostMove.start], phase := .done, result := .ok } ∧
      { State.reset with host := [HostMove.start], phase := .done, result := .ok }.cmd.toNat < 10 ∧
      { State.reset with host := [HostMove.start], phase := .done, result := .ok }.host = [.start] := by
  unfold betweenPasses; decide
/-- A primitive command started from IDLE. -/
theorem witness_EveryAcceptedStartReachesDone :
    betweenPasses { State.reset with host := [HostMove.start], cmd := 5#4 } ∧
      { State.reset with host := [HostMove.start], cmd := 5#4 }.cmd.toNat < 10 ∧
      { State.reset with host := [HostMove.start], cmd := 5#4 }.host = [.start] ∧
      { State.reset with host := [HostMove.start], cmd := 5#4 }.cmd ≠ 0#4 := by unfold betweenPasses; decide
/-- Two cores about to DECODE, with different OFF_INIT, one of them with registers of an earlier pass. -/
theorem witness_PassesDependOnTheirInputsAlone_message :
    let s := { State.reset with host := [HostMove.start], offInit := 3 }
    let t := { State.reset with host := [HostMove.start], phase := .done, off := 7, flags := 0xAD#8 }
    betweenPasses s ∧ betweenPasses t ∧ s.host = [.start] ∧ t.host = [.start] ∧ s.cmd.toNat < 10 ∧
      s.seq = t.seq ∧ s.cmd = t.cmd ∧ s.cmd = 0#4 ∧ s.portValid = t.portValid ∧ s.port = t.port := by
  unfold betweenPasses; decide
/-- Two cores about to run READU8, with different ports. -/
theorem witness_PassesDependOnTheirInputsAlone_primitive :
    let s := { State.reset with host := [HostMove.start], cmd := 1#4, portValid := true, port := 2 }
    let t := { State.reset with host := [HostMove.start], cmd := 1#4, phase := .done, off := 7 }
    betweenPasses s ∧ betweenPasses t ∧ s.host = [.start] ∧ t.host = [.start] ∧ s.cmd.toNat < 10 ∧
      s.seq = t.seq ∧ s.cmd = t.cmd ∧ s.cmd ≠ 0#4 ∧ s.offInit = t.offInit := by
  unfold betweenPasses; decide
theorem witness_ReservedBitmapBitsAreIgnored : (0xE1#8).toNat % 32 = (0x01#8).toNat % 32 := by decide
theorem witness_ReservedBitmapBitsAreIgnored_absent_port :
    (State.reset.portValid = false ∨ State.reset.port = 1) ∧ State.reset.record = ⟨none, none, none, none, none⟩ := by
  decide
theorem witness_ReservedBitmapBitsAreIgnored_port_one :
    ((envState []).portValid = false ∨ (envState []).port = 1) ∧
      (envState []).record = ⟨none, none, none, none, none⟩ := by decide
theorem witness_TrailingBytesHaveNoEffect : messageLength 0x1F#8 ≤ (List.replicate 9 (0#8)).length + 2 := by decide
theorem witness_PrimStepRunsTheCommand :
    (primState [0x2A] 1#4 0).phase = .prim ∧ decodeCmd (primState [0x2A] 1#4 0).cmd = .ok .readu8 ∧
      Instr.readu8 ≠ .decode ∧ (primState [0x2A] 1#4 0).host = [] := by decide
/-- The same with an ignored START as the host's move. -/
theorem witness_PrimStepRunsTheCommand_start :
    { primState [0x2A] 9#4 0 with host := [HostMove.start] }.phase = .prim ∧
      decodeCmd { primState [0x2A] 9#4 0 with host := [HostMove.start] }.cmd = .ok .dectempc ∧
      { primState [0x2A] 9#4 0 with host := [HostMove.start] }.host = .start :: [] := by decide
theorem witness_FieldStepRunsTheSelectedOperation :
    (fieldState [0x1F, 0x10] .differentialPressure 2).phase = .field .differentialPressure ∧
      (fieldState [0x1F, 0x10] .differentialPressure 2).host = [] ∧
      decodeSel .differentialPressure (fieldState [0x1F, 0x10] .differentialPressure 2).flags = .ok .selDp ∧
      Slot.selected .vbattery (fieldState [0x1F, 0x10] .vbattery 2).flags = false := by decide
/-- A waiting host, and one whose START is ignored, at the phase of a slot. -/
theorem witness_FieldStepRunsTheSelectedOperation_host :
    { fieldState [0x1F, 0x10] .boot 2 with host := [HostMove.wait] }.phase = .field .boot ∧
      { fieldState [0x1F, 0x10] .boot 2 with host := [HostMove.wait] }.host = .wait :: [] ∧
      { fieldState [0x1F, 0x10] .boot 2 with host := [HostMove.start] }.host = .start :: [] := by decide
theorem witness_EnvelopeAndBitmapStepsFollowTheTable :
    (envState [0x1F]).host = [] ∧ (envState [0x1F]).phase = .env ∧
      { envState [0x1F] with phase := .bmp, off := 1 }.phase = .bmp := by decide
theorem witness_EnvelopeAndBitmapStepsFollowTheTable_host :
    { envState [0x1F] with host := [HostMove.wait] }.host = .wait :: [] ∧
      { envState [0x1F] with host := [HostMove.wait] }.phase = .env ∧
      { envState [0x1F] with phase := .bmp, off := 1, host := [HostMove.start] }.host = .start :: [] ∧
      { envState [0x1F] with phase := .bmp, off := 1, host := [HostMove.start] }.phase = .bmp := by decide
/-- A state that meets the invariant in a phase other than IDLE: temperature selected, Boot decoded. -/
theorem witness_EveryStepKeepsTheInvariant :
    Inv { fieldState [0x1F, 0x0C, 0x2A, 0x13, 0x88] .temperatureC 3 with
      pres := 0b00100#5, record := ⟨none, none, some 0x2A#8, none, none⟩ } ∧
      ∃ t, step { fieldState [0x1F, 0x0C, 0x2A, 0x13, 0x88] .temperatureC 3 with
        pres := 0b00100#5, record := ⟨none, none, some 0x2A#8, none, none⟩ } = .next t := by
  refine ⟨⟨by decide, ?_, by decide, by decide, ?_⟩, ⟨_, rfl⟩⟩
  · intro i; cases i <;> rfl
  · exact And.intro rfl (And.intro rfl (And.intro (by decide) (And.intro rfl (And.intro rfl (And.intro rfl rfl)))))
theorem witness_NoStepIsStuck_host :
    { envState [0x1F] with host := [HostMove.supply [] false 0 0#4 0] }.phase.busy = true := by decide
theorem witness_CursorNeverMovesBack :
    (primState [0x2A] 1#4 0).phase.busy = true ∧ (primState [0x2A] 1#4 0).phase ≠ .env ∧
      (∀ rest, (primState [0x2A] 1#4 0).host ≠ .reset :: rest) ∧
      (primState [0x2A] 1#4 0).off ≤ (primState [0x2A] 1#4 0).seq.len ∧
      ∃ t, step (primState [0x2A] 1#4 0) = .next t :=
  ⟨by decide, by decide, fun _ h => by simp [primState, State.reset] at h, by decide, ⟨_, rfl⟩⟩
theorem witness_NothingWritesTheInputs :
    (∃ t, exec .decode (envState [0x1F]) = .next t) ∧ (∃ t, step (envState [0x1F]) = .next t) ∧
      ∀ bytes portValid port cmd offInit rest,
        (envState [0x1F]).host ≠ .supply bytes portValid port cmd offInit :: rest :=
  ⟨⟨_, rfl⟩, ⟨_, rfl⟩, fun _ _ _ _ _ _ h => by simp [envState, State.reset] at h⟩
theorem witness_PrimitiveCommandFrame :
    primitiveWidth .decvolt = some 2 ∧ (∃ t, exec .decvolt (primState [0x10, 0x00] 8#4 0) = .next t) ∧
      (primState [0x10, 0x00] 8#4 0).off + 2 ≤ (primState [0x10, 0x00] 8#4 0).seq.len :=
  ⟨rfl, ⟨_, rfl⟩, by decide⟩
theorem witness_FieldSelectFrame :
    (∃ t, exec (Slot.instr .boot) (fieldState [0x1F, 0x04, 0xFF] .boot 2) = .next t) ∧
      (fieldState [0x1F, 0x04, 0xFF] .boot 2).off + fieldWidth .boot ≤
        (fieldState [0x1F, 0x04, 0xFF] .boot 2).seq.len ∧ Slot.vbattery ≠ .boot :=
  ⟨⟨_, rfl⟩, by decide, by decide⟩
theorem witness_DecodeFrame :
    (nextOf (exec .decode (envState [0x1F, 0x00]))).map (fun t => (t.result, t.flags.getLsbD 0)) =
      some (.ok, false) := by decide
/-- A step that writes a slot and does not end in ERROR. -/
theorem witness_EachSlotHasOneWriter :
    (fieldState [0x1F, 0x04, 0xFF] .boot 2).phase.busy = true ∧
      (∀ rest, (fieldState [0x1F, 0x04, 0xFF] .boot 2).host ≠ .reset :: rest) ∧
      (nextOf (step (fieldState [0x1F, 0x04, 0xFF] .boot 2))).map (fun t => (t.result, t.record.boot)) =
        some (.none, some 0xFF#8) ∧
      (fieldState [0x1F, 0x04, 0xFF] .boot 2).record.boot = none :=
  ⟨by decide, fun _ h => by simp [fieldState, State.reset] at h, by decide, by decide⟩
/-- Every slot in turn: selected, it fits, its step writes it and does not end in ERROR. -/
theorem witness_EachSlotHasOneWriter_every_slot :
    ∀ i ∈ Slot.all, (fieldState [0x1F, 0xFF, 0x10, 0x01] i 2).record.has i = false ∧
      (fieldState [0x1F, 0xFF, 0x10, 0x01] i 2).off + fieldWidth i ≤
        (fieldState [0x1F, 0xFF, 0x10, 0x01] i 2).seq.len ∧
      (nextOf (step (fieldState [0x1F, 0xFF, 0x10, 0x01] i 2))).map
        (fun t => (decide (t.result = .error), t.record.has i)) = some (false, true) := by decide +kernel
theorem witness_ErrorComesOnlyFromFaultEntry :
    (primState [] 1#4 0).result ≠ .error ∧
      (nextOf (step (primState [] 1#4 0))).map (fun t => t.result) = some .error := by decide
/-- A pass that ended with a value, and one that ended with a record. -/
theorem witness_OutcomeIsReadExactlyAtDone :
    Inv { primState [0x2A] 1#4 0 with off := 1, phase := .done, result := .ok, val := some (.unsigned 42) } ∧
      hostVal { primState [0x2A] 1#4 0 with off := 1, phase := .done, result := .ok, val := some (.unsigned 42) } =
        some (.unsigned 42) ∧
      hostRecord { envState [0x1F, 0x00] with off := 2, phase := .done, result := .ok } = some Record.empty := by
  refine ⟨⟨by decide, ?_, by decide, by decide, ?_⟩, by decide, by decide⟩
  · intro i; cases i <;> rfl
  · exact Or.inr (And.intro rfl (And.intro rfl rfl))
/-- A pass not yet ended: RESULT and ERRCODE are not readable. -/
theorem witness_OutcomeIsReadExactlyAtDone_busy :
    Inv (primState [0x2A] 1#4 0) ∧ hostResult (primState [0x2A] 1#4 0) = none ∧
      hostErrcode (primState [0x2A] 1#4 0) = none := by
  refine ⟨⟨by decide, ?_, by decide, by decide, ?_⟩, by decide, by decide⟩
  · intro i; cases i <;> rfl
  · exact And.intro (by decide) (And.intro (by decide) (And.intro rfl (And.intro rfl (And.intro rfl rfl))))
/-- A pass that ended in OutOfRange: both are readable. -/
theorem witness_OutcomeIsReadExactlyAtDone_error :
    Inv { primState [] 1#4 0 with phase := .done, result := .error, errcode := .outOfRange } ∧
      hostResult { primState [] 1#4 0 with phase := .done, result := .error, errcode := .outOfRange } = some .error ∧
      hostErrcode { primState [] 1#4 0 with phase := .done, result := .error, errcode := .outOfRange } =
        some .outOfRange := by
  refine ⟨⟨by decide, ?_, by decide, by decide, ?_⟩, by decide, by decide⟩
  · intro i; cases i <;> rfl
  · exact And.intro rfl rfl
/-- 41_integer_decoders.md R74's DECI16(0xF000) = -4096 on the wires of VAL (10_state.md R27): sign-extended. -/
theorem test_wires_signed : (Value.signed (i16OfRaw 0xF000#16)).wires = 0xFFFFFFFFFFFFF000#64 := by decide
/-- The same raw value read unsigned: zero-extended. -/
theorem test_wires_unsigned : (Value.unsigned (0xF000#16).toNat).wires = 0xF000#64 := by decide
/-- 10_state.md R28: F0 is 3, F4 is 7. -/
theorem test_phase_codes :
    (Phase.field .vbattery).code = 3#4 ∧ (Phase.field .differentialPressure).code = 7#4 := by decide
theorem witness_EncodedOperationsDecodeBack : Instr.selDp.wellFormed = true := by decide
theorem witness_DecoderAcceptsExactlyTheWellFormed :
    (0xE4#8).getLsbD (Slot.index .boot) = (0x04#8).getLsbD (Slot.index .boot) := by decide

end Sys2Proof.Tests
end

/-! ## The rounding is to nearest, ties to even (00_scope.md R11, 42_compact_float.md R78)

The finite binary64 values of magnitude at least `2^52 * U` are whole multiples of the unit `U = 2^(u - 1074)`. So a number
of that magnitude (any number, at the least unit) has its nearest binary64 value among the multiples of U, and the multiple
within half a unit is it. -/
namespace Sys2Proof.Machine

/-- Only a magnitude below that of infinity packs to a finite value. -/
theorem lt_infinity_of_f64Pack_finite {neg : Bool} {magnitude : Nat}
    (h : f64Finite (f64Pack neg magnitude) = true) : magnitude < 2047 * 2 ^ 52 := by
  by_contra hge
  have hinf : f64Pack neg magnitude = f64Pack neg (2047 * 2 ^ 52) := by
    unfold f64Pack
    rw [min_eq_right (not_lt.1 hge), min_self]
  rw [hinf] at h
  cases neg <;> exact absurd h (by decide)

theorem f64Significand_lt (x : F64) : f64Significand x < 2 ^ 53 := by
  have hf : f64Fraction x < 2 ^ 52 := Nat.mod_lt _ (by norm_num)
  unfold f64Significand
  split <;> omega

theorem f64Scale_ge (x : F64) : -1074 ≤ f64Scale x := by
  unfold f64Scale
  omega

/-- A binary64 value is a whole number of units, or it lies below the binade of the unit. -/
theorem f64Val_multiple_or_lt (x : F64) (u : Nat) :
    (∃ j : Int, f64Val x = j * 2 ^ ((u : Int) - 1074)) ∨
      0 < u ∧ |f64Val x| < 2 ^ 52 * 2 ^ ((u : Int) - 1074) := by
  have h2 : (2 : ℚ) ≠ 0 := by norm_num
  rcases le_or_gt ((u : Int) - 1074) (f64Scale x) with hle | hgt
  · left
    have hscale : (2 : ℚ) ^ f64Scale x =
        2 ^ (f64Scale x - ((u : Int) - 1074)).toNat * 2 ^ ((u : Int) - 1074) := by
      rw [← zpow_natCast, Int.toNat_of_nonneg (sub_nonneg.2 hle), ← zpow_add₀ h2, sub_add_cancel]
    refine ⟨(if f64Sign x then -1 else 1) * f64Significand x * 2 ^ (f64Scale x - ((u : Int) - 1074)).toNat, ?_⟩
    rw [f64Val, hscale]
    push_cast
    ring
  · right
    refine ⟨by have := f64Scale_ge x; omega, ?_⟩
    have hsig : (f64Significand x : ℚ) < 2 ^ 53 := by exact_mod_cast f64Significand_lt x
    calc |f64Val x| = f64Significand x * 2 ^ f64Scale x := f64Val_abs x
      _ < 2 ^ 53 * 2 ^ f64Scale x := mul_lt_mul_of_pos_right hsig (by positivity)
      _ = 2 ^ 52 * 2 ^ (f64Scale x + 1) := by rw [zpow_add_one₀ h2]; ring
      _ ≤ 2 ^ 52 * 2 ^ ((u : Int) - 1074) :=
        mul_le_mul_of_nonneg_left (zpow_le_zpow_right₀ (by norm_num) (by omega)) (by positivity)

/-- Every other multiple of the unit is at least half a unit away from a number within half a unit of the first. -/
theorem half_le_abs_sub_of_multiple_ne {U q : ℚ} {M j : Int} (hU : 0 < U) (h : |M * U - q| ≤ U / 2) (hne : j ≠ M) :
    U / 2 ≤ |j * U - q| := by
  have hone : (1 : ℚ) ≤ |(j : ℚ) - M| := by exact_mod_cast Int.one_le_abs (sub_ne_zero.2 hne)
  have hstep : U ≤ |j * U - M * U| := by
    rw [← sub_mul, abs_mul, abs_of_pos hU]
    exact le_mul_of_one_le_left hU.le hone
  have htriangle := abs_sub_le (j * U) q (M * U)
  rw [abs_sub_comm q] at htriangle
  linarith

/-- The multiple of the unit within half a unit is the nearest multiple. -/
theorem abs_sub_le_of_multiple {U q : ℚ} {M : Int} (hU : 0 < U) (h : |M * U - q| ≤ U / 2) (j : Int) :
    |M * U - q| ≤ |j * U - q| := by
  rcases eq_or_ne j M with rfl | hne
  · exact le_rfl
  · exact h.trans (half_le_abs_sub_of_multiple_ne hU h hne)

/-- A value below the binade of the unit is farther than the multiple within half a unit: the multiple at the foot of the
binade lies between. -/
theorem abs_sub_lt_of_below_binade {U q z : ℚ} {M : Int} (hU : 0 < U) (h : |M * U - q| ≤ U / 2)
    (hq : 2 ^ 52 * U ≤ |q|) (hz : |z| < 2 ^ 52 * U) : |M * U - q| < |z - q| := by
  have hfoot : ∃ j : Int, |j * U - q| = |q| - 2 ^ 52 * U := by
    rcases le_total 0 q with h0 | h0
    · rw [abs_of_nonneg h0] at hq ⊢
      refine ⟨2 ^ 52, ?_⟩
      push_cast
      rw [abs_of_nonpos (by linarith)]
      ring
    · rw [abs_of_nonpos h0] at hq ⊢
      refine ⟨-2 ^ 52, ?_⟩
      push_cast
      rw [abs_of_nonneg (by linarith)]
      ring
  obtain ⟨j, hj⟩ := hfoot
  calc |M * U - q| ≤ |j * U - q| := abs_sub_le_of_multiple hU h j
    _ = |q| - 2 ^ 52 * U := hj
    _ < |q| - |z| := by linarith
    _ ≤ |z - q| := by rw [abs_sub_comm]; exact abs_sub_abs_le_abs_sub q z

/-- A packed significand within half a unit of a number, even where it is exactly half a unit away, is the number's nearest
value. -/
theorem f64Pack_isNearest (neg : Bool) (u m : Nat) (q : ℚ) (hm : m ≤ 2 ^ 53)
    (hlow : 0 < u → 2 ^ 52 ≤ m ∧ 2 ^ 52 * 2 ^ ((u : Int) - 1074) ≤ |q|)
    (hfin : u * 2 ^ 52 + m < 2047 * 2 ^ 52)
    (hhalf : |(if neg then -1 else 1) * (m : ℚ) * 2 ^ ((u : Int) - 1074) - q| ≤ 2 ^ ((u : Int) - 1074) / 2)
    (heven : |(if neg then -1 else 1) * (m : ℚ) * 2 ^ ((u : Int) - 1074) - q| = 2 ^ ((u : Int) - 1074) / 2 →
      m % 2 = 0) :
    IsNearest (f64Pack neg (u * 2 ^ 52 + m)) q := by
  obtain ⟨hfinite, -, hparity, hval⟩ := f64Pack_spec neg u m hm (fun hu => (hlow hu).1) hfin
  refine ⟨hfinite, fun y _ => ?_⟩
  rw [hparity, hval]
  have hU : (0 : ℚ) < 2 ^ ((u : Int) - 1074) := by positivity
  have hsigned : (if neg then -1 else 1) * (m : ℚ) = (((if neg then -1 else 1) * m : Int) : ℚ) := by push_cast; rfl
  rw [hsigned] at hhalf heven ⊢
  rcases f64Val_multiple_or_lt y u with ⟨j, hj⟩ | ⟨hu, hsmall⟩
  · rw [hj]
    refine ⟨abs_sub_le_of_multiple hU hhalf j, fun hne htie => heven (le_antisymm hhalf ?_)⟩
    rw [← htie]
    exact half_le_abs_sub_of_multiple_ne hU hhalf (fun h => hne (by rw [h]))
  · have hfar := abs_sub_lt_of_below_binade hU hhalf (hlow hu).2 hsmall
    exact ⟨hfar.le, fun _ htie => absurd htie hfar.ne'⟩

/-- Where the rounding of a number is finite, it is the number's nearest value. -/
theorem roundNearest_isNearest (neg : Bool) (n d : Nat) (k : Int) (hd : 0 < d)
    (hfinite : f64Finite (roundNearest neg n d k) = true) :
    IsNearest (roundNearest neg n d k) ((if neg then -1 else 1) * ((n : ℚ) / (d : ℚ)) * (2 : ℚ) ^ k) := by
  rcases Nat.eq_zero_or_pos n with rfl | hn
  · have hzero : roundNearest neg 0 d k = f64Pack neg (0 * 2 ^ 52 + 0) := rfl
    have hunit : (0 : ℚ) ≤ 2 ^ (((0 : Nat) : Int) - 1074) / 2 := by positivity
    rw [hzero]
    exact f64Pack_isNearest neg 0 0 _ (by norm_num) (fun h => absurd h (lt_irrefl 0)) (by norm_num)
      (by simpa using hunit) (fun _ => rfl)
  · obtain ⟨u, m, hr, hm, hlow, -, hhalf, heven⟩ := roundNearest_spec neg n d k hn hd
    rw [hr] at hfinite ⊢
    have hmag : (0 : ℚ) ≤ (n : ℚ) / d * 2 ^ k := by positivity
    have hdist : |(if neg then -1 else 1) * (m : ℚ) * 2 ^ ((u : Int) - 1074) -
        (if neg then -1 else 1) * ((n : ℚ) / d) * 2 ^ k| =
        |(n : ℚ) / d * 2 ^ k - m * 2 ^ ((u : Int) - 1074)| := by
      rw [mul_assoc, mul_assoc, ← mul_sub, abs_mul, abs_sub_comm]
      cases neg <;> simp
    have habs : |(if neg then -1 else 1) * ((n : ℚ) / d) * 2 ^ k| = (n : ℚ) / d * 2 ^ k := by
      rw [mul_assoc, abs_mul, abs_of_nonneg hmag]
      cases neg <;> simp
    refine f64Pack_isNearest neg u m _ hm (fun hu => ⟨(hlow hu).1, ?_⟩) (lt_infinity_of_f64Pack_finite hfinite)
      (hdist ▸ hhalf) (hdist ▸ heven)
    have hbinade := (hlow hu).2
    rw [habs, mul_comm]
    rwa [zpow_add₀ (by norm_num : (2 : ℚ) ≠ 0)] at hbinade

/-- Settles O26, by `roundNearest_isNearest`: the significand at the unit of the number's binade is within half a unit, and
no value off that unit's multiples is nearer. -/
theorem roundingIsToNearestTiesToEven : Obligations.RoundingIsToNearestTiesToEven := by
  unfold Obligations.RoundingIsToNearestTiesToEven
  exact roundNearest_isNearest

end Sys2Proof.Machine

/-! ## The state of the core (10_state.md)

The invariant, the slots and their one writer, the canonical form of B, what the host reads, and the host's moves. The
five slots are taken as one family (the kind of value a slot holds, what the record holds in it, the writing of it), so
that a fact about a slot is said once and not once for each of the five. -/
namespace Sys2Proof.Machine

/-! ### One slot of five -/

/-- What a slot holds: the raw byte at Boot, a binary64 value elsewhere (10_state.md R20). -/
def SlotValue : Slot → Type
  | .vbattery => F64
  | .vsystem => F64
  | .boot => Byte
  | .temperatureC => F64
  | .differentialPressure => F64

/-- What the record holds in a slot. -/
def Record.get (r : Record) : (i : Slot) → Option (SlotValue i)
  | .vbattery => r.vbattery
  | .vsystem => r.vsystem
  | .boot => r.boot
  | .temperatureC => r.temperatureC
  | .differentialPressure => r.differentialPressure

/-- The write of a slot and its presence bit, one of the five of Machine/Ops.lean. -/
def State.put (s : State) : (i : Slot) → SlotValue i → State
  | .vbattery, x => s.putVbattery x
  | .vsystem, x => s.putVsystem x
  | .boot, b => s.putBoot b
  | .temperatureC, x => s.putTemperatureC x
  | .differentialPressure, x => s.putDifferentialPressure x

theorem Record.has_eq_isSome_get (r : Record) (i : Slot) : r.has i = (r.get i).isSome := by cases i <;> rfl

theorem State.put_frame (s : State) (i : Slot) (x : SlotValue i) :
    s.put i x = { s with record := (s.put i x).record, pres := withPresent s.pres i } := by cases i <;> rfl

@[simp] theorem State.put_get_same (s : State) (i : Slot) (x : SlotValue i) : (s.put i x).record.get i = some x := by
  cases i <;> rfl

theorem State.put_get_other (s : State) {i j : Slot} (x : SlotValue i) (h : j ≠ i) :
    (s.put i x).record.get j = s.record.get j := by
  cases i <;> cases j <;> simp at h <;> rfl

theorem slotIndex_lt (i : Slot) : i.index < 5 := by cases i <;> decide

theorem slotIndex_injective : Function.Injective Slot.index := by
  intro i j h
  cases i <;> cases j <;> simp [Slot.index] at h ⊢

theorem State.nextField_record (s : State) (i : Slot) : (s.nextField i).record = s.record := by cases i <;> rfl

/-- A slot's operation writes the slot from the field at OFF and goes on, or takes fault entry
(44_message_decoder.md R100 to R104). -/
theorem selectField_cases (i : Slot) (s : State) :
    (s.off + fieldWidth i ≤ s.seq.len ∧ ∃ x, selectField i s = ((s.advance (fieldWidth i)).put i x).nextField i) ∨
      (s.seq.len < s.off + fieldWidth i ∧ selectField i s = s.faultEntry) := by
  cases i
  case boot => exact (select8_cases _ _ s).imp_left fun ⟨hfits, h⟩ => ⟨hfits, _, h⟩
  all_goals exact (select16_cases _ _ s).imp_left fun ⟨hfits, h⟩ => ⟨hfits, _, h⟩

/-! ### The commands -/

theorem eq_zero_of_decodeCmd {code : BitVec 4} (h : decodeCmd code = .ok .decode) : code = 0#4 := by
  unfold decodeCmd at h
  split at h <;> cases h
  exact BitVec.eq_of_toNat_eq ‹_›

theorem bounds_of_decodeCmd {code : BitVec 4} {i : Instr} (h : decodeCmd code = .ok i) (hne : i ≠ .decode) :
    0 < code.toNat ∧ code.toNat < 10 := by
  unfold decodeCmd at h
  split at h <;> cases h
  · exact absurd rfl hne
  all_goals omega

/-- START begins the pass of its command; a reserved command changes nothing (44_message_decoder.md R110). -/
theorem acceptStart_cases (s : State) :
    acceptStart s = s ∨ (s.cmd = 0#4 ∧ acceptStart s = s.beginPass 0 .env) ∨
      ((0 < s.cmd.toNat ∧ s.cmd.toNat < 10) ∧ acceptStart s = s.beginPass s.offInit .prim) := by
  unfold acceptStart
  split
  · exact .inl rfl
  · exact .inr (.inl ⟨eq_zero_of_decodeCmd ‹_›, rfl⟩)
  · exact .inr (.inr ⟨bounds_of_decodeCmd ‹_› ‹_›, rfl⟩)

theorem exec_of_primitiveWidth_one {i : Instr} (h : primitiveWidth i = some 1) :
    ∃ value, ∀ s, exec i s = .next (primitive8 value s) := by
  cases i <;> simp [primitiveWidth] at h
  exact ⟨_, fun _ => rfl⟩

theorem exec_of_primitiveWidth_two {i : Instr} (h : primitiveWidth i = some 2) :
    ∃ value, ∀ s, exec i s = .next (primitive16 value s) := by
  cases i <;> simp [primitiveWidth] at h
  all_goals exact ⟨_, fun _ => rfl⟩

/-- Phase PRIM ends with a value or takes fault entry (44_message_decoder.md R110, row PRIM). -/
theorem exec_command_cases {s t : State} {i : Instr} (hi : decodeCmd s.cmd = .ok i) (hne : i ≠ .decode)
    (h : exec i s = .next t) : (∃ n v, t = (s.advance n).finishValue v) ∨ t = s.faultEntry := by
  rcases primitiveWidth_of_decodeCmd hi hne with ⟨hw, -⟩ | hw
  · obtain ⟨value, hexec⟩ := exec_of_primitiveWidth_one hw
    obtain rfl : primitive8 value s = t := by simpa [hexec] using h
    exact (primitive8_cases value s).imp (fun ⟨_, h⟩ => ⟨_, _, h⟩) (fun ⟨_, h⟩ => h)
  · obtain ⟨value, hexec⟩ := exec_of_primitiveWidth_two hw
    obtain rfl : primitive16 value s = t := by simpa [hexec] using h
    exact (primitive16_cases value s).imp (fun ⟨_, h⟩ => ⟨_, _, h⟩) (fun ⟨_, h⟩ => h)

/-- IDLE and DONE are the phases that are not BUSY (10_state.md R28). -/
theorem betweenPasses_iff (s : State) : betweenPasses s ↔ s.phase.busy = false := by
  cases hp : s.phase <;> simp [betweenPasses, hp, Phase.busy]

/-! ### The presence bits -/

/-- The lowest n bits of a FlagBitmap, as wide as PRES: `flagsBelow` at the number of a slot. -/
def lowFlags (flags : Byte) (n : Nat) : BitVec 5 := BitVec.ofNat 5 (flags.toNat % 2 ^ n)

theorem flagsBelow_eq_lowFlags (flags : Byte) (i : Slot) : flagsBelow flags i = lowFlags flags i.index := rfl

theorem lowFlags_five (flags : Byte) : lowFlags flags 5 = flags.setWidth 5 :=
  BitVec.eq_of_toNat_eq (by simp [lowFlags])

theorem getLsbD_lowFlags (flags : Byte) (n : Nat) {k : Nat} (hk : k < 5) :
    (lowFlags flags n).getLsbD k = (decide (k < n) && flags.getLsbD k) := by
  rw [lowFlags, BitVec.getLsbD_ofNat, Nat.testBit_mod_two_pow, BitVec.testBit_toNat, decide_eq_true hk, Bool.true_and]

theorem getLsbD_withPresent (pres : BitVec 5) (i : Slot) (k : Nat) :
    (withPresent pres i).getLsbD k = (pres.getLsbD k || decide (i.index = k)) := by
  have hbit : presenceBit i = BitVec.twoPow 5 i.index := by cases i <;> rfl
  rw [withPresent, hbit, BitVec.getLsbD_or, BitVec.getLsbD_twoPow, decide_eq_true (slotIndex_lt i), Bool.true_and]

/-- Slot i adds its bit of FLAGS to the bits decoded so far. -/
theorem lowFlags_succ (flags : Byte) (i : Slot) :
    lowFlags flags (i.index + 1) =
      if i.selected flags then withPresent (lowFlags flags i.index) i else lowFlags flags i.index := by
  refine BitVec.eq_of_getLsbD_eq fun k hk => ?_
  rw [apply_ite (BitVec.getLsbD · k), getLsbD_withPresent, getLsbD_lowFlags _ _ hk, getLsbD_lowFlags _ _ hk]
  rcases eq_or_ne i.index k with rfl | hne
  · cases h : i.selected flags <;> simpa [Slot.selected] using h
  · have hlt : k < i.index + 1 ↔ k < i.index := by omega
    simp [hne, hlt]

/-! ### The invariant at the start and at the end of a pass -/

theorem slotsMatch_of_empty {s : State} (hrecord : s.record = Record.empty) (hpres : s.pres = 0#5) : slotsMatch s := by
  intro i
  rw [hrecord, hpres]
  cases i <;> rfl

theorem Inv.seq_wf {s : State} (h : Inv s) : s.seq.wf = true := h.1

/-- RESULT and ERRCODE are clear in every phase other than DONE. -/
theorem Inv.clear_of_not_done {s : State} (h : Inv s) (hp : s.phase ≠ .done) :
    s.result = .none ∧ s.errcode = .none := by
  obtain ⟨-, -, herr, hdone, -⟩ := h
  have hresult : s.result = .none := by simpa [hp] using hdone
  refine ⟨hresult, ?_⟩
  cases hc : s.errcode with
  | none => rfl
  | outOfRange => simp [hc, hresult] at herr

/-- In a phase other than DONE, with RESULT and ERRCODE clear, the rest of the invariant is the phase's own part. -/
theorem inv_of_not_done {s : State} (hwf : s.seq.wf = true) (hslots : slotsMatch s) (herr : s.errcode = .none)
    (hresult : s.result = .none) (hp : s.phase ≠ .done) (hphase : phaseInv s) : Inv s :=
  ⟨hwf, hslots, by simp [herr, hresult], by simp [hresult, hp], hphase⟩

theorem resetRegisters_inv {s : State} (hwf : s.seq.wf = true) : Inv s.resetRegisters :=
  inv_of_not_done hwf (slotsMatch_of_empty rfl rfl) rfl rfl (by simp) ⟨rfl, rfl, rfl, rfl⟩

theorem faultEntry_inv {s : State} (hwf : s.seq.wf = true) : Inv s.faultEntry :=
  ⟨hwf, slotsMatch_of_empty rfl rfl, by simp, by simp, ⟨rfl, rfl⟩⟩

/-! ### Every row of the phase table keeps the invariant (44_message_decoder.md R110) -/

section Rows
variable {s : State} (h : Inv s)
include h

theorem acceptStart_inv : Inv (acceptStart s) := by
  have hwf := h.seq_wf
  rcases acceptStart_cases s with heq | ⟨hcmd, heq⟩ | ⟨⟨hpos, hlt⟩, heq⟩ <;> rw [heq]
  · exact h
  · exact inv_of_not_done hwf (slotsMatch_of_empty rfl rfl) rfl rfl (by simp) ⟨hcmd, rfl, rfl, rfl, rfl⟩
  · exact inv_of_not_done hwf (slotsMatch_of_empty rfl rfl) rfl rfl (by simp) ⟨hpos, hlt, rfl, rfl, rfl, rfl⟩

/-- Between passes the invariant says nothing of the inputs but the canonical form. -/
theorem setInputs_inv (hidle : s.phase.busy = false) (bytes : List Byte) (portValid : Bool) (port : Nat)
    (cmd : BitVec 4) (offInit : Nat) : Inv (s.setInputs bytes portValid port cmd offInit) := by
  obtain ⟨-, hslots, herr, hdone, hphase⟩ := h
  refine ⟨State.setInputs_seq_wf s _ _ _ _ _, hslots, herr, hdone, ?_⟩
  rcases (betweenPasses_iff s).2 hidle with hp | hp <;> simpa [phaseInv, hp] using hphase

theorem envelopePhase_inv (hp : s.phase = .env) : Inv (envelopePhase s) := by
  obtain ⟨hresult, herr⟩ := h.clear_of_not_done (by simp [hp])
  obtain ⟨hwf, hslots, -, -, hphase⟩ := h
  simp only [phaseInv, hp] at hphase
  obtain ⟨hcmd, hoff, hflags, hpres, hval⟩ := hphase
  rcases envelopePhase_cases s with heq | ⟨hport, hlen, hbyte, heq⟩ <;> rw [heq]
  · exact ⟨hwf, hslots, by simp [herr], by simp, ⟨hoff, hflags, hpres, hval⟩⟩
  · have henv : envelopeMatches s = true := by
      simpa [envelopeMatches, portAccepted, servedPort, hlen, hbyte, formatByte] using hport
    exact inv_of_not_done hwf hslots herr hresult (by simp) ⟨hcmd, rfl, hflags, hpres, hval, henv⟩

theorem bitmapPhase_inv (hp : s.phase = .bmp) : Inv (bitmapPhase s) := by
  obtain ⟨hresult, herr⟩ := h.clear_of_not_done (by simp [hp])
  obtain ⟨hwf, hslots, -, -, hphase⟩ := h
  simp only [phaseInv, hp] at hphase
  obtain ⟨hcmd, hoff, -, hpres, hval, henv⟩ := hphase
  rcases bitmapPhase_cases s with ⟨hfits, heq⟩ | ⟨-, heq⟩ <;> rw [heq]
  · have hnone : s.pres = flagsBelow (s.seq.byte s.off) .vbattery := by
      rw [hpres, flagsBelow, Slot.index, pow_zero, Nat.mod_one]
    exact inv_of_not_done hwf hslots herr hresult (by simp)
      ⟨hcmd, congrArg (· + 1) hoff, hfits, congrArg s.seq.byte hoff, hnone, hval, henv⟩
  · exact faultEntry_inv hwf

theorem exec_command_inv {t : State} {i : Instr} (hp : s.phase = .prim) (hi : decodeCmd s.cmd = .ok i)
    (hne : i ≠ .decode) (hexec : exec i s = .next t) : Inv t := by
  obtain ⟨-, herr⟩ := h.clear_of_not_done (by simp [hp])
  obtain ⟨hwf, hslots, -, -, hphase⟩ := h
  simp only [phaseInv, hp] at hphase
  obtain ⟨-, -, -, hflags, hpres, -⟩ := hphase
  rcases exec_command_cases hi hne hexec with ⟨n, v, rfl⟩ | rfl
  · exact ⟨hwf, hslots, by simp [herr], by simp, .inr ⟨rfl, hpres, hflags⟩⟩
  · exact faultEntry_inv hwf

end Rows

/-- Step 5 is past slot i and the next phase is not yet entered: OFF is past the slot's field and PRES holds the bits of
FLAGS up to bit i. -/
structure FieldDone (i : Slot) (s : State) : Prop where
  wf : s.seq.wf = true
  slots : slotsMatch s
  errcode : s.errcode = .none
  result : s.result = .none
  cmd : s.cmd = 0#4
  off : s.off = fieldStart s.flags i + widthIn s.flags i
  fits : s.off ≤ s.seq.len
  flags : s.flags = s.seq.byte 1
  pres : s.pres = lowFlags s.flags (i.index + 1)
  val : s.val = none
  envelope : envelopeMatches s = true

/-- Going on to the slot whose field begins where slot i's ends. -/
theorem FieldDone.enter_inv {s : State} {i j : Slot} (h : FieldDone i s) (hindex : j.index = i.index + 1)
    (hstart : fieldStart s.flags j = fieldStart s.flags i + widthIn s.flags i) : Inv (s.enter (.field j)) := by
  have hpres : s.pres = flagsBelow s.flags j := by rw [flagsBelow_eq_lowFlags, hindex, h.pres]
  exact inv_of_not_done h.wf h.slots h.errcode h.result (by simp)
    ⟨h.cmd, h.off.trans hstart.symm, h.fits, h.flags, hpres, h.val, h.envelope⟩

theorem FieldDone.nextField_inv {s : State} {i : Slot} (h : FieldDone i s) : Inv (s.nextField i) := by
  cases i with
  | vbattery => exact h.enter_inv rfl rfl
  | vsystem => exact h.enter_inv rfl rfl
  | boot => exact h.enter_inv rfl rfl
  | temperatureC => exact h.enter_inv rfl rfl
  | differentialPressure =>
    have hpres : s.pres = s.flags.setWidth 5 := h.pres.trans (lowFlags_five s.flags)
    exact ⟨h.wf, h.slots, by simp [State.nextField, h.errcode], by simp [State.nextField], .inl ⟨h.val, hpres, h.off⟩⟩

theorem put_slotsMatch {s : State} (h : slotsMatch s) (i : Slot) (x : SlotValue i) : slotsMatch (s.put i x) := by
  intro j
  have hpres : (s.put i x).pres = withPresent s.pres i := by rw [State.put_frame]
  rw [hpres, getLsbD_withPresent, ← h j, Record.has_eq_isSome_get, Record.has_eq_isSome_get]
  rcases eq_or_ne j i with rfl | hne
  · simp
  · simp [State.put_get_other s x hne, slotIndex_injective.ne hne.symm]

theorem fieldPhase_inv {s : State} (h : Inv s) {i : Slot} (hp : s.phase = .field i) : Inv (fieldPhase i s) := by
  obtain ⟨hresult, herr⟩ := h.clear_of_not_done (by simp [hp])
  obtain ⟨hwf, hslots, -, -, hphase⟩ := h
  simp only [phaseInv, hp] at hphase
  obtain ⟨hcmd, hoff, hlen, hflags, hpres, hval, henv⟩ := hphase
  rcases fieldPhase_cases i s with ⟨hset, heq⟩ | ⟨hclear, heq⟩ <;> rw [heq]
  · rcases selectField_cases i s with ⟨hfits, x, heq⟩ | ⟨-, heq⟩ <;> rw [heq]
    · refine FieldDone.nextField_inv ?_
      have hslots' := put_slotsMatch (s := s.advance (fieldWidth i)) hslots i x
      rw [State.put_frame] at hslots' ⊢
      exact {
        wf := hwf, slots := hslots', errcode := herr, result := hresult, cmd := hcmd
        off := by simp [hoff, widthIn, hset]
        fits := hfits, flags := hflags
        pres := by simp [lowFlags_succ, hset, hpres, flagsBelow_eq_lowFlags]
        val := hval, envelope := henv }
    · exact faultEntry_inv hwf
  · exact FieldDone.nextField_inv {
      wf := hwf, slots := hslots, errcode := herr, result := hresult, cmd := hcmd
      off := by simp [hoff, widthIn, hclear]
      fits := hlen, flags := hflags
      pres := by simp [lowFlags_succ, hclear, hpres, flagsBelow_eq_lowFlags]
      val := hval, envelope := henv }

theorem phaseStep_inv {s t : State} (h : Inv s) (hstep : phaseStep s = .next t) : Inv t := by
  rcases phaseStep_cases hstep with ⟨-, rfl⟩ | ⟨hp, rfl⟩ | ⟨hp, rfl⟩ | ⟨i, hp, rfl⟩ | ⟨hp, i, hi, hne, hexec⟩
  · exact h
  · exact envelopePhase_inv h hp
  · exact bitmapPhase_inv h hp
  · exact fieldPhase_inv h hp
  · exact exec_command_inv h hp hi hne hexec

/-- The invariant says nothing of the host's coming moves. -/
theorem Inv.withHost {s : State} (h : Inv s) (moves : List HostMove) : Inv (s.withHost moves) := h

/-- Settles O44: the host's moves and the rows of the phase table each keep the invariant. -/
theorem everyStepKeepsTheInvariant : Obligations.EveryStepKeepsTheInvariant := by
  unfold Obligations.EveryStepKeepsTheInvariant
  intro s t h hstep
  rcases step_cases hstep with ⟨rest, -, rfl⟩ | ⟨_, _, _, _, _, rest, -, hidle, rfl⟩ | ⟨rest, -, -, rfl⟩ | ⟨-, hrow⟩
  · exact resetRegisters_inv (h.withHost rest).seq_wf
  · exact setInputs_inv (h.withHost rest) hidle _ _ _ _ _
  · exact acceptStart_inv (h.withHost rest)
  · exact phaseStep_inv (h.withHost s.host.tail) hrow

/-- Settles O43: the machine after reset is one that RESET leaves as it is. -/
theorem resetMeetsTheInvariant : Obligations.ResetMeetsTheInvariant := by
  unfold Obligations.ResetMeetsTheInvariant
  exact resetRegisters_inv State.reset_seq_wf

/-! ### Each slot has one writer (10_state.md R20) -/

/-- A field phase that does not end in ERROR writes its own slot alone, and only where its bit of FLAGS is set. -/
theorem fieldPhase_get {i j : Slot} {s : State} (herr : (fieldPhase i s).result ≠ .error)
    (hne : (fieldPhase i s).record.get j ≠ s.record.get j) : j = i ∧ i.selected s.flags = true := by
  rcases fieldPhase_cases i s with ⟨hset, heq⟩ | ⟨-, heq⟩ <;> rw [heq] at herr hne
  · rcases selectField_cases i s with ⟨-, x, heq⟩ | ⟨-, heq⟩ <;> rw [heq] at herr hne
    · rw [State.nextField_record] at hne
      exact ⟨by_contra fun hji => hne (State.put_get_other _ x hji), hset⟩
    · exact absurd rfl herr
  · rw [State.nextField_record] at hne
    exact absurd rfl hne

/-- The row of a phase that does not end in ERROR writes no slot but that of a field phase. -/
theorem phaseStep_get {s t : State} {j : Slot} (hstep : phaseStep s = .next t) (herr : t.result ≠ .error)
    (hne : t.record.get j ≠ s.record.get j) : s.phase = .field j ∧ j.selected s.flags = true := by
  rcases phaseStep_cases hstep with ⟨-, rfl⟩ | ⟨-, rfl⟩ | ⟨-, rfl⟩ | ⟨i, hp, rfl⟩ | ⟨-, i, hi, hd, hexec⟩
  · exact absurd rfl hne
  · rcases envelopePhase_cases s with heq | ⟨-, -, -, heq⟩ <;> rw [heq] at hne <;> exact absurd rfl hne
  · rcases bitmapPhase_cases s with ⟨-, heq⟩ | ⟨-, heq⟩ <;> rw [heq] at hne herr
    · exact absurd rfl hne
    · exact absurd rfl herr
  · obtain ⟨rfl, hset⟩ := fieldPhase_get herr hne
    exact ⟨hp, hset⟩
  · rcases exec_command_cases hi hd hexec with ⟨n, v, rfl⟩ | rfl
    · exact absurd rfl hne
    · exact absurd rfl herr

/-- The step of a BUSY core that is not reset and does not end in ERROR changes a slot only in the slot's own phase. -/
theorem step_get {s t : State} {j : Slot} (hbusy : s.phase.busy = true) (hreset : ∀ rest, s.host ≠ .reset :: rest)
    (hstep : step s = .next t) (herr : t.result ≠ .error) (hne : t.record.get j ≠ s.record.get j) :
    s.phase = .field j ∧ j.selected s.flags = true := by
  rcases step_cases hstep with ⟨rest, hh, -⟩ | ⟨_, _, _, _, _, _, -, hidle, -⟩ | ⟨_, -, hidle, -⟩ | ⟨-, hrow⟩
  · exact absurd hh (hreset rest)
  · simp [hbusy] at hidle
  · simp [hbusy] at hidle
  · exact phaseStep_get (s := s.withHost s.host.tail) hrow herr hne

/-- Settles O51: `step_get` at each of the five slots. -/
theorem eachSlotHasOneWriter : Obligations.EachSlotHasOneWriter := by
  unfold Obligations.EachSlotHasOneWriter
  intro s t hbusy hreset hstep herr
  have hslot (j : Slot) := step_get (j := j) hbusy hreset hstep herr
  exact ⟨hslot .vbattery, hslot .vsystem, hslot .boot, hslot .temperatureC, hslot .differentialPressure⟩

/-! ### The canonical form of B (log entry 6) -/

theorem cellsOk_cons {lo len a : Nat} {b : Byte} {rest : List Host.Cell} (h : cellsOk lo len ((a, b) :: rest) = true) :
    lo ≤ a ∧ a < len ∧ b ≠ unlistedByte ∧ cellsOk (a + 1) len rest = true := by
  simpa [cellsOk, and_assoc] using h

/-- Cells listed from `lo` on give no byte below it. -/
theorem lookupCell_below {lo len x : Nat} {cells : List Host.Cell} (h : cellsOk lo len cells = true) (hx : x < lo) :
    lookupCell cells x = unlistedByte := by
  induction cells generalizing lo with
  | nil => rfl
  | cons cell rest ih =>
    obtain ⟨hlo, -, -, hrest⟩ := cellsOk_cons h
    rw [lookupCell, if_neg (by omega), ih hrest (by omega)]

/-- The first cell's offset is listed, so it holds another byte than cells that start above it give it. -/
theorem head_offset_not_below {lo lo' len a : Nat} {b : Byte} {rest cells : List Host.Cell}
    (h : cellsOk lo len ((a, b) :: rest) = true) (h' : cellsOk lo' len cells = true)
    (heq : ∀ x, lo ≤ x → x < len → lookupCell ((a, b) :: rest) x = lookupCell cells x) : ¬ a < lo' := by
  intro hbelow
  obtain ⟨hlo, hlen, hb, -⟩ := cellsOk_cons h
  have hhead := heq a hlo hlen
  rw [lookupCell_below h' hbelow, lookupCell, if_pos rfl] at hhead
  exact hb hhead

theorem cellsOk_from_head {lo len a : Nat} {b : Byte} {rest : List Host.Cell}
    (h : cellsOk lo len ((a, b) :: rest) = true) : cellsOk a len ((a, b) :: rest) = true := by
  obtain ⟨-, hlen, hb, hrest⟩ := cellsOk_cons h
  simp [cellsOk, hlen, hb, hrest]

/-- Cells in canonical form that give the same bytes are the same cells. -/
theorem cells_eq {lo len : Nat} {xs ys : List Host.Cell} (hx : cellsOk lo len xs = true) (hy : cellsOk lo len ys = true)
    (heq : ∀ x, lo ≤ x → x < len → lookupCell xs x = lookupCell ys x) : xs = ys := by
  have heq' x (hlo : lo ≤ x) (hlen : x < len) := (heq x hlo hlen).symm
  induction xs generalizing lo ys with
  | nil =>
    cases ys with
    | nil => rfl
    | cons cell _ => exact absurd (Nat.lt_succ_self cell.1) (head_offset_not_below hy rfl heq')
  | cons cell rest ih =>
    obtain ⟨a, b⟩ := cell
    cases ys with
    | nil => exact absurd (Nat.lt_succ_self a) (head_offset_not_below hx rfl heq)
    | cons cell' rest' =>
      obtain ⟨a', b'⟩ := cell'
      have hle := head_offset_not_below hx (cellsOk_from_head hy) heq
      have hge := head_offset_not_below hy (cellsOk_from_head hx) heq'
      obtain rfl : a = a' := by omega
      obtain ⟨hlo, hlen, -, hrest⟩ := cellsOk_cons hx
      obtain ⟨-, -, -, hrest'⟩ := cellsOk_cons hy
      obtain rfl : b = b' := by simpa [lookupCell] using heq a hlo hlen
      have htail x (hax : a + 1 ≤ x) (hx : x < len) : lookupCell rest x = lookupCell rest' x := by
        have hne : a ≠ x := by omega
        simpa [lookupCell, hne] using heq x (by omega) hx
      rw [ih hrest hrest' htail fun x h h' => (htail x h h').symm]

/-- Settles O10, by `cells_eq`: the least offset listed on one side alone would hold 0x00 on the other. -/
theorem equalByteSequencesAreEqualData : Obligations.EqualByteSequencesAreEqualData := by
  unfold Obligations.EqualByteSequencesAreEqualData
  rintro ⟨len, xs⟩ ⟨_, ys⟩ hx hy rfl hbytes
  exact congrArg (Memory.mk len) (cells_eq hx hy fun x _ hlen => hbytes x hlen)

/-! ### What the host reads (10_state.md R23 to R28, R32) -/

/-- A pass that has ended, and no other, has an outcome (70_reset_and_hazards.md R137). -/
theorem exists_passOutcome_iff (s : State) :
    (∃ r, passOutcome s = some r) ↔ s.phase = .done ∧ s.result ≠ .none := by
  cases hp : s.phase with
  | done => cases hr : s.result <;> cases hv : s.val <;> simp [passOutcome, hp, hr, hv]
  | _ => simp [passOutcome, hp]

/-- The host reads a record where RESULT is OK and VAL holds no value, and it is the outcome's. -/
theorem hostRecord_eq_some {s : State} {r : Record} (h : hostRecord s = some r) :
    s.phase = .done ∧ s.result = .ok ∧ s.val = none ∧ r = s.record := by
  unfold hostRecord at h
  split at h
  · obtain ⟨hp, hr, hv⟩ := ‹_ ∧ _ ∧ _›
    exact ⟨hp, hr, hv, (Option.some.inj h).symm⟩
  · cases h

theorem hostVal_eq_some {s : State} {v : Value} (h : hostVal s = some v) :
    s.phase = .done ∧ s.result = .ok ∧ s.val = some v := by
  unfold hostVal at h
  split at h
  · obtain ⟨hp, hr⟩ := ‹_ ∧ _›
    exact ⟨hp, hr, h⟩
  · cases h

/-- Settles O53: what may be read is fixed by PHASE, RESULT and VAL, and the invariant has RESULT other than NONE exactly
at DONE. -/
theorem outcomeIsReadExactlyAtDone : Obligations.OutcomeIsReadExactlyAtDone := by
  unfold Obligations.OutcomeIsReadExactlyAtDone
  intro s h
  obtain ⟨-, -, herr, hdone, -⟩ := h
  refine ⟨?_, ?_, ?_, ?_, ?_, ?_⟩
  · rw [exists_passOutcome_iff, hdone, and_self]
  · intro r hread
    obtain ⟨hp, hr, hv, rfl⟩ := hostRecord_eq_some hread
    simp [passOutcome, hostVal, hp, hr, hv]
  · intro v hread
    obtain ⟨hp, hr, hv⟩ := hostVal_eq_some hread
    simp [passOutcome, hostRecord, hp, hr, hv]
  · intro hr
    simp [hostRecord, hostVal, hr]
  · intro hp
    exact ⟨if_pos hp, hdone.2 hp, if_pos hp, herr⟩
  · intro hp
    exact ⟨if_neg hp, if_neg hp⟩

/-- The I16 reading of a raw field is its two's complement (30_encoding.md R56). -/
theorem i16OfRaw_eq_toInt (raw : Raw) : i16OfRaw raw = raw.toInt := by
  rw [i16OfRaw, BitVec.toInt_eq_msb_cond, BitVec.msb_eq_getLsbD_last]
  rfl

/-- Settles O58: the signed wires by `i16OfRaw_eq_toInt`, sign extension being that of the two's complement value. -/
theorem valueWiresExtendTheResult : Obligations.ValueWiresExtendTheResult := by
  unfold Obligations.ValueWiresExtendTheResult
  refine ⟨fun v => ?_, fun raw => ?_, fun raw => ?_, fun x => rfl⟩
  · exact BitVec.ofNat_toNat 64 v
  · exact BitVec.ofNat_toNat 64 raw
  · rw [i16OfRaw_eq_toInt]
    rfl

/-- The phase a code is read as. -/
def phaseOfCode : BitVec 4 → Phase
  | 0 => .idle
  | 1 => .env
  | 2 => .bmp
  | 3 => .field .vbattery
  | 4 => .field .vsystem
  | 5 => .field .boot
  | 6 => .field .temperatureC
  | 7 => .field .differentialPressure
  | 8 => .done
  | _ => .prim

theorem phaseOfCode_code (p : Phase) : phaseOfCode p.code = p := by
  cases p with
  | field i => cases i <;> rfl
  | _ => rfl

theorem phaseCode_injective : Function.Injective Phase.code :=
  Function.LeftInverse.injective phaseOfCode_code

theorem fieldCode_toNat (i : Slot) : (Phase.field i).code.toNat = 3 + i.index := by cases i <;> rfl

theorem phaseCode_lt_ten (p : Phase) : p.code.toNat < 10 := by
  cases p with
  | field i => rw [fieldCode_toNat]; have := slotIndex_lt i; omega
  | _ => decide

theorem busy_iff_code (p : Phase) :
    p.busy = true ↔ (1 ≤ p.code.toNat ∧ p.code.toNat ≤ 7) ∨ p.code.toNat = 9 := by
  cases p with
  | field i => simp only [Phase.busy, fieldCode_toNat, true_iff]; have := slotIndex_lt i; omega
  | _ => decide

/-- Settles O59: different phases have different codes because `phaseOfCode` reads the phase back from its code. -/
theorem registerCodesAreThoseOfTheSpec : Obligations.RegisterCodesAreThoseOfTheSpec := by
  unfold Obligations.RegisterCodesAreThoseOfTheSpec
  refine ⟨⟨rfl, rfl, rfl, rfl⟩, ⟨rfl, rfl⟩, ⟨rfl, rfl, rfl, fieldCode_toNat, rfl, rfl⟩, fun p q => ?_⟩
  exact ⟨phaseCode_lt_ten p, fun h => phaseCode_injective h, busy_iff_code p⟩

/-! ### Reset and the host's moves (10_state.md R29, R31, R32) -/

/-- Settles O2, each register by the definition of `State.reset`. -/
theorem resetStateHoldsTheResetValues : Obligations.ResetStateHoldsTheResetValues := by
  unfold Obligations.ResetStateHoldsTheResetValues
  exact ⟨rfl, rfl, rfl, rfl, rfl, rfl, rfl, rfl⟩

/-- The host's move and the rest of its moves are those at the head of the list. -/
theorem step_of_host {s : State} {move : HostMove} {rest : List HostMove} (h : s.host = move :: rest) :
    step s = hostStep (s.withHost rest) move := by
  rw [step, machineStep, h]

theorem hostStep_start_of_busy {s : State} (h : s.phase.busy = true) : hostStep s .start = hostStep s .wait := by
  simp [hostStep, h]

theorem hostStep_supply_of_not_busy {s : State} (h : s.phase.busy = false) (bytes : List Byte) (portValid : Bool)
    (port : Nat) (cmd : BitVec 4) (offInit : Nat) :
    hostStep s (.supply bytes portValid port cmd offInit) =
      .next (s.setInputs bytes portValid port cmd offInit) := by
  simp [hostStep, h]

/-- Settles O5, by `hostStep_start_of_busy`. -/
theorem startWhileBusyIsIgnored : Obligations.StartWhileBusyIsIgnored := by
  unfold Obligations.StartWhileBusyIsIgnored
  intro s rest hbusy
  exact hostStep_start_of_busy (s := s.withHost rest) hbusy

/-- Settles O7, by `hostStep_supply_of_not_busy`. -/
theorem hostSetsInputsBetweenPasses : Obligations.HostSetsInputsBetweenPasses := by
  unfold Obligations.HostSetsInputsBetweenPasses
  intro s rest bytes portValid port cmd offInit hbetween hhost
  rw [step_of_host hhost, hostStep_supply_of_not_busy (s := s.withHost rest) ((betweenPasses_iff s).1 hbetween)]
  rfl

end Sys2Proof.Machine

/-! ## The ByteSequence and the other inputs (20_memory.md)

What the host supplies is what the reads give back, and nothing in the core writes it. What comes from the host is taken
as one value, so that an operation's leaving it alone is one equation. -/
namespace Sys2Proof.Machine

/-! ### The supplied bytes are read back (R36, R38, R42) -/

/-- The cells of a byte list give back its first byte, although they leave out a byte equal to `unlistedByte`. -/
theorem lookupCell_cellsFrom_cons (b : Byte) (rest : List Byte) (a x : Nat) :
    lookupCell (cellsFrom a (b :: rest)) x = if a = x then b else lookupCell (cellsFrom (a + 1) rest) x := by
  rw [cellsFrom]
  split
  case isTrue hb =>
    rcases eq_or_ne a x with rfl | hne
    · rw [if_pos rfl, lookupCell_cellsFrom_below rest (a + 1) a (Nat.lt_succ_self a), hb]
    · rw [if_neg hne]
  case isFalse => rfl

theorem lookupCell_cellsFrom (bytes : List Byte) (a k : Nat) (h : k < bytes.length) :
    lookupCell (cellsFrom a bytes) (a + k) = bytes[k] := by
  induction bytes generalizing a k with
  | nil => exact absurd h (Nat.not_lt_zero k)
  | cons b rest ih =>
    rw [lookupCell_cellsFrom_cons]
    cases k with
    | zero => simp
    | succ k =>
      have hshift : a + (k + 1) = a + 1 + k := by omega
      rw [if_neg (by omega), hshift, ih (a + 1) k (Nat.lt_of_succ_lt_succ h), List.getElem_cons_succ]

theorem Memory.byte_ofBytes {bytes : List Byte} {a : Nat} {v : Byte} (h : bytes[a]? = some v) :
    (Memory.ofBytes bytes).byte a = v := by
  obtain ⟨hlt, rfl⟩ := List.getElem?_eq_some_iff.1 h
  simpa [Memory.byte, Memory.ofBytes] using lookupCell_cellsFrom bytes 0 a hlt

theorem Memory.read8_ofBytes (bytes : List Byte) (a : Nat) : (Memory.ofBytes bytes).read8 a = bytes[a]? := by
  cases h : bytes[a]? with
  | none =>
    have hlen : bytes.length ≤ a := List.getElem?_eq_none_iff.1 h
    exact (Memory.read8_eq_none _ _).2 (Nat.lt_succ_of_le hlen)
  | some v =>
    obtain ⟨hlt, -⟩ := List.getElem?_eq_some_iff.1 h
    exact (Memory.read8_eq_some _ _ _).2 ⟨hlt, (Memory.byte_ofBytes h).symm⟩

theorem Memory.read16_ofBytes {bytes : List Byte} {a : Nat} {high low : Byte} (hhigh : bytes[a]? = some high)
    (hlow : bytes[a + 1]? = some low) : (Memory.ofBytes bytes).read16 a = some (rawOfBytes high low) := by
  obtain ⟨hlt, -⟩ := List.getElem?_eq_some_iff.1 hlow
  refine (Memory.read16_eq_some _ _ _).2 ⟨hlt, ?_⟩
  rw [Memory.byte_ofBytes hhigh, Memory.byte_ofBytes hlow]

/-- Settles O9: the cells give back every byte of the list (`lookupCell_cellsFrom`), and the reads answer exactly below its
length. -/
theorem suppliedBytesAreReadBack : Obligations.SuppliedBytesAreReadBack := by
  unfold Obligations.SuppliedBytesAreReadBack
  intro bytes a
  refine ⟨Memory.ofBytes_len bytes, Memory.read8_ofBytes bytes a, fun high low hhigh hlow => ?_, fun hnone => ?_⟩
  · exact ⟨_, Memory.read16_ofBytes hhigh hlow, rawOfBytes_toNat high low⟩
  · have hlen : bytes.length ≤ a + 1 := List.getElem?_eq_none_iff.1 hnone
    exact (Memory.read16_eq_none _ _).2 (Nat.lt_succ_of_le hlen)

/-! ### Nothing writes the inputs (R37) -/

/-- What comes from the host: the inputs and its coming moves. -/
structure HostSide where
  seq : Memory
  portValid : Bool
  port : Nat
  cmd : BitVec 4
  offInit : Nat
  moves : List HostMove

/-- The host's part of a state. -/
def State.hostSide (s : State) : HostSide := ⟨s.seq, s.portValid, s.port, s.cmd, s.offInit, s.host⟩

theorem State.hostSide_eq_iff (s t : State) :
    t.hostSide = s.hostSide ↔ t.seq = s.seq ∧ t.portValid = s.portValid ∧ t.port = s.port ∧ t.cmd = s.cmd ∧
      t.offInit = s.offInit ∧ t.host = s.host :=
  HostSide.mk.injEq .. ▸ Iff.rfl

theorem State.put_hostSide (s : State) (i : Slot) (x : SlotValue i) : (s.put i x).hostSide = s.hostSide := by
  cases i <;> rfl

theorem State.nextField_hostSide (s : State) (i : Slot) : (s.nextField i).hostSide = s.hostSide := by
  cases i <;> rfl

theorem primitive8_hostSide (value : Byte → Value) (s : State) : (primitive8 value s).hostSide = s.hostSide := by
  rcases primitive8_cases value s with ⟨-, heq⟩ | ⟨-, heq⟩ <;> rw [heq] <;> rfl

theorem primitive16_hostSide (value : Raw → Value) (s : State) : (primitive16 value s).hostSide = s.hostSide := by
  rcases primitive16_cases value s with ⟨-, heq⟩ | ⟨-, heq⟩ <;> rw [heq] <;> rfl

theorem selectField_hostSide (i : Slot) (s : State) : (selectField i s).hostSide = s.hostSide := by
  rcases selectField_cases i s with ⟨-, x, heq⟩ | ⟨-, heq⟩ <;> rw [heq]
  · rw [State.nextField_hostSide, State.put_hostSide]
    rfl
  · rfl

theorem envelopePhase_hostSide (s : State) : (envelopePhase s).hostSide = s.hostSide := by
  rcases envelopePhase_cases s with heq | ⟨-, -, -, heq⟩ <;> rw [heq] <;> rfl

theorem bitmapPhase_hostSide (s : State) : (bitmapPhase s).hostSide = s.hostSide := by
  rcases bitmapPhase_cases s with ⟨-, heq⟩ | ⟨-, heq⟩ <;> rw [heq] <;> rfl

theorem fieldPhase_hostSide (i : Slot) (s : State) : (fieldPhase i s).hostSide = s.hostSide := by
  rcases fieldPhase_cases i s with ⟨-, heq⟩ | ⟨-, heq⟩ <;> rw [heq]
  · exact selectField_hostSide i s
  · exact State.nextField_hostSide s i

theorem fieldPhases_hostSide (slots : List Slot) (s : State) : (fieldPhases slots s).hostSide = s.hostSide := by
  induction slots generalizing s with
  | nil => rfl
  | cons i rest ih =>
    rw [fieldPhases]
    split
    · exact fieldPhase_hostSide i s
    · rw [ih, fieldPhase_hostSide]

theorem messagePass_hostSide (s : State) : (messagePass s).hostSide = s.hostSide := by
  unfold messagePass
  dsimp only
  split
  · exact envelopePhase_hostSide s
  · split
    · rw [bitmapPhase_hostSide, envelopePhase_hostSide]
    · rw [fieldPhases_hostSide, bitmapPhase_hostSide, envelopePhase_hostSide]

/-- The three kinds of operation: DECODE, the five field selects and the primitive commands (30_encoding.md R60). -/
theorem instr_cases (i : Instr) :
    i = .decode ∨ (∃ slot : Slot, i = slot.instr) ∨ primitiveWidth i = some 1 ∨ primitiveWidth i = some 2 := by
  cases i
  case decode => exact .inl rfl
  case selVbat => exact .inr (.inl ⟨.vbattery, rfl⟩)
  case selVsys => exact .inr (.inl ⟨.vsystem, rfl⟩)
  case selBoot => exact .inr (.inl ⟨.boot, rfl⟩)
  case selTempc => exact .inr (.inl ⟨.temperatureC, rfl⟩)
  case selDp => exact .inr (.inl ⟨.differentialPressure, rfl⟩)
  case readu8 => exact .inr (.inr (.inl rfl))
  all_goals exact .inr (.inr (.inr rfl))

theorem exec_decode (s : State) : exec .decode s = .next (messagePass s) := rfl

/-- No operation writes what comes from the host. -/
theorem exec_hostSide {i : Instr} {s t : State} (h : exec i s = .next t) : t.hostSide = s.hostSide := by
  rcases instr_cases i with rfl | ⟨slot, rfl⟩ | hw | hw
  · obtain rfl : messagePass s = t := by simpa [exec_decode] using h
    exact messagePass_hostSide s
  · obtain rfl : selectField slot s = t := by simpa [exec_slot_instr] using h
    exact selectField_hostSide slot s
  · obtain ⟨value, hexec⟩ := exec_of_primitiveWidth_one hw
    obtain rfl : primitive8 value s = t := by simpa [hexec] using h
    exact primitive8_hostSide value s
  · obtain ⟨value, hexec⟩ := exec_of_primitiveWidth_two hw
    obtain rfl : primitive16 value s = t := by simpa [hexec] using h
    exact primitive16_hostSide value s

theorem phaseStep_hostSide {s t : State} (h : phaseStep s = .next t) : t.hostSide = s.hostSide := by
  rcases phaseStep_cases h with ⟨-, rfl⟩ | ⟨-, rfl⟩ | ⟨-, rfl⟩ | ⟨i, -, rfl⟩ | ⟨-, i, -, -, hexec⟩
  · rfl
  · exact envelopePhase_hostSide s
  · exact bitmapPhase_hostSide s
  · exact fieldPhase_hostSide i s
  · exact exec_hostSide hexec

theorem acceptStart_hostSide (s : State) : (acceptStart s).hostSide = s.hostSide := by
  rcases acceptStart_cases s with heq | ⟨-, heq⟩ | ⟨-, heq⟩ <;> rw [heq] <;> rfl

/-- A step that is not the host's setting of the inputs takes the host's move and leaves the rest of its part alone. -/
theorem step_hostSide {s t : State} (h : step s = .next t)
    (hsupply : ∀ bytes portValid port cmd offInit rest,
      s.host ≠ .supply bytes portValid port cmd offInit :: rest) :
    t.hostSide = (s.withHost s.host.tail).hostSide := by
  rcases step_cases h with
    ⟨rest, hhost, rfl⟩ | ⟨_, _, _, _, _, _, hhost, -, -⟩ | ⟨rest, hhost, -, rfl⟩ | ⟨-, hrow⟩
  · rw [hhost]
    rfl
  · exact absurd hhost (hsupply _ _ _ _ _ _)
  · rw [hhost]
    exact acceptStart_hostSide _
  · exact phaseStep_hostSide hrow

/-- Settles O47, by `exec_hostSide` and `step_hostSide`. -/
theorem nothingWritesTheInputs : Obligations.NothingWritesTheInputs := by
  unfold Obligations.NothingWritesTheInputs
  refine ⟨fun i s t h => ?_, fun s t h hsupply => ?_⟩
  · obtain ⟨hseq, hkept⟩ := (State.hostSide_eq_iff s t).1 (exec_hostSide h)
    exact ⟨hseq, fun a => by rw [hseq], hkept⟩
  · obtain ⟨hseq, hvalid, hport, hcmd, hoff, -⟩ := (State.hostSide_eq_iff _ t).1 (step_hostSide h hsupply)
    exact ⟨hseq, hvalid, hport, hcmd, hoff⟩

end Sys2Proof.Machine

/-! ## The encodings (30_encoding.md)

Which words the three formats accept, how long a message is, and what DECODE makes of it. The whole pass is given a
closed form, `messagePass_eq`, for every state: what it leaves is said by the first field that is missing or by the fields
taken in turn, so that its result, and what it does not depend on, are read off that form. -/
namespace Sys2Proof.Machine

/-! ### The words of the three formats (R50, R51, R60 to R64) -/

theorem selected_iff (i : Slot) (flags : Byte) : i.selected flags = true ↔ flags.toNat / 2 ^ i.index % 2 = 1 := by
  rw [Slot.selected, BitVec.getLsbD, Nat.testBit_eq_decide_div_mod_eq, decide_eq_true_iff]

theorem extractLsb'_eq_formatByte_iff (header : BitVec 16) :
    header.extractLsb' 8 8 = formatByte ↔ header.toNat / 256 = 31 := by
  have hlt : header.toNat < 65536 := header.isLt
  rw [← BitVec.toNat_inj, BitVec.extractLsb'_toNat, Nat.shiftRight_eq_div_pow, formatByte, BitVec.toNat_ofNat]
  omega

/-- The mask 0xFF00 keeps the high byte in its place, so the masked header is 0x1F00 exactly where that byte is 0x1F. -/
theorem headerMask_iff (header : BitVec 16) : header &&& 0xFF00#16 = 0x1F00#16 ↔ header.toNat / 256 = 31 := by
  have hlt : header.toNat < 65536 := header.isLt
  have hmask : header &&& 0xFF00#16 = (header >>> 8) <<< 8 := by
    ext k hk
    interval_cases k <;> simp
  rw [hmask, ← BitVec.toNat_inj, BitVec.toNat_shiftLeft, BitVec.toNat_ushiftRight, Nat.shiftRight_eq_div_pow,
    Nat.shiftLeft_eq, BitVec.toNat_ofNat]
  omega

theorem decodeEnv_eq_ok_iff (byte0 : Byte) (i : Instr) :
    decodeEnv byte0 = .ok i ↔ byte0 = formatByte ∧ i = .decode := by
  unfold decodeEnv
  split <;> simp [*, eq_comm]

theorem decodeSel_isOk_iff (slot : Slot) (flags : Byte) :
    (∃ i, decodeSel slot flags = .ok i) ↔ slot.selected flags = true := by
  unfold decodeSel
  split <;> simp [*]

theorem decodeCmd_isOk_iff (code : BitVec 4) : (∃ i, decodeCmd code = .ok i) ↔ code.toNat < 10 := by
  constructor
  · rintro ⟨i, hi⟩
    by_cases hd : i = .decode
    · subst hd
      rw [eq_zero_of_decodeCmd hi]
      decide
    · exact (bounds_of_decodeCmd hi hd).2
  · intro hlt
    unfold decodeCmd
    interval_cases code.toNat <;> exact ⟨_, rfl⟩

theorem wellFormed_sel_iff (i : Slot) (flags : Byte) :
    (CodeWord.sel i flags).wellFormed = true ↔ i.selected flags = true := by
  rw [selected_iff]
  cases i <;> simp [CodeWord.wellFormed, Slot.index]

/-- Settles O56, format by format: the decoder's test and that of `wellFormed` are the same condition on the word. -/
theorem decoderAcceptsExactlyTheWellFormed : Obligations.DecoderAcceptsExactlyTheWellFormed := by
  unfold Obligations.DecoderAcceptsExactlyTheWellFormed
  refine ⟨fun w => ?_, fun header => ?_, fun i flags flags' h => ?_⟩
  · cases w with
    | env header =>
      simp only [decode, decodeEnv_eq_ok_iff, exists_and_left, exists_eq, and_true]
      rw [extractLsb'_eq_formatByte_iff, CodeWord.wellFormed, beq_iff_eq]
    | sel i flags => rw [decode, decodeSel_isOk_iff, wellFormed_sel_iff]
    | cmd code => rw [decode, decodeCmd_isOk_iff, CodeWord.wellFormed, decide_eq_true_iff]
  · rw [decode, decodeEnv_eq_ok_iff, and_iff_left rfl, extractLsb'_eq_formatByte_iff, headerMask_iff]
  · have hsel : i.selected flags = i.selected flags' := h
    rw [decode, decode, decodeSel, decodeSel, hsel]

/-- Settles O54: the decoder evaluates on each of the eight words. -/
theorem sampleWordsDecode : Obligations.SampleWordsDecode := by
  unfold Obligations.SampleWordsDecode
  exact ⟨rfl, rfl, rfl, rfl, rfl, rfl, rfl, rfl⟩

/-- Settles O55: the decoder evaluates on the encoder's word of each of the 15 operations. -/
theorem encodedOperationsDecodeBack : Obligations.EncodedOperationsDecodeBack := by
  unfold Obligations.EncodedOperationsDecodeBack
  intro i _
  cases i <;> rfl

theorem decodeBitmap_eq_flatMap (flags : Byte) :
    decodeBitmap flags = Slot.all.flatMap fun i => if i.selected flags then [i.instr] else [] := by
  rw [decodeBitmap]
  induction Slot.all with
  | nil => rfl
  | cons i rest ih =>
    rw [List.flatMap_cons, ← ih]
    cases h : i.selected flags <;> simp [h]

/-- Settles O57: the bitmap is tested slot by slot (`decodeBitmap_eq_flatMap`), and each test is of one binary digit. -/
theorem bitmapSelectsEverySetBitInOrder : Obligations.BitmapSelectsEverySetBitInOrder := by
  unfold Obligations.BitmapSelectsEverySetBitInOrder
  intro flags
  simp [decodeBitmap_eq_flatMap, selected_iff, Slot.all, Slot.index, Slot.instr]

theorem hostStep_start_of_not_busy {s : State} (h : s.phase.busy = false) :
    hostStep s .start = .next (acceptStart s) := by
  simp [hostStep, h]

theorem acceptStart_of_reserved {s : State} (h : 10 ≤ s.cmd.toNat) : acceptStart s = s := by
  rcases acceptStart_cases s with heq | ⟨hzero, -⟩ | ⟨⟨-, hlt⟩, -⟩
  · exact heq
  · rw [hzero] at h
    exact absurd h (by decide)
  · exact absurd hlt h.not_gt

/-- Settles O4, by `acceptStart_of_reserved`. -/
theorem reservedCommandStartChangesNothing : Obligations.ReservedCommandStartChangesNothing := by
  unfold Obligations.ReservedCommandStartChangesNothing
  intro s rest hhost hbetween hcmd
  rw [step_of_host hhost, hostStep_start_of_not_busy (s := s.withHost rest) ((betweenPasses_iff s).1 hbetween),
    acceptStart_of_reserved (s := s.withHost rest) hcmd]
  rfl

/-! ### Where the fields of a message are (R51 to R53) -/

theorem widthIn_eq (flags : Byte) (i : Slot) :
    widthIn flags i = fieldWidth i * (flags.toNat / 2 ^ i.index % 2) := by
  rcases Nat.mod_two_eq_zero_or_one (flags.toNat / 2 ^ i.index) with h | h <;> simp [widthIn, selected_iff, h]

theorem messageLength_eq (flags : Byte) :
    messageLength flags =
      2 + 2 * (flags.toNat % 2) + 2 * (flags.toNat / 2 % 2) + flags.toNat / 4 % 2 + 2 * (flags.toNat / 8 % 2) +
        2 * (flags.toNat / 16 % 2) := by
  simp [messageLength, fieldStart, widthIn_eq, fieldWidth, Slot.index]

theorem two_le_fieldStart (flags : Byte) (i : Slot) : 2 ≤ fieldStart flags i := by
  cases i <;> simp only [fieldStart] <;> omega

theorem fieldEnd_le_messageLength (flags : Byte) (i : Slot) :
    fieldStart flags i + widthIn flags i ≤ messageLength flags := by
  cases i <;> simp only [messageLength, fieldStart] <;> omega

theorem two_le_messageLength (flags : Byte) : 2 ≤ messageLength flags :=
  (two_le_fieldStart flags .vbattery).trans (Nat.le_of_add_right_le (fieldEnd_le_messageLength flags .vbattery))

theorem fieldStart_of_index {i j : Slot} (hindex : j.index = i.index + 1) (flags : Byte) :
    fieldStart flags j = fieldStart flags i + widthIn flags i := by
  cases i <;> cases j <;> simp [Slot.index] at hindex <;> rfl

theorem nextField_of_index {i j : Slot} (hindex : j.index = i.index + 1) (s : State) :
    s.nextField i = s.enter (.field j) := by
  cases i <;> cases j <;> simp [Slot.index] at hindex <;> rfl

/-- The slots that step 5 still has before it when it comes to slot i: i and all above it, in bit order. -/
inductive SlotsFrom : Slot → List Slot → Prop where
  | last : SlotsFrom .differentialPressure [.differentialPressure]
  | cons {i j : Slot} {rest : List Slot} (hindex : j.index = i.index + 1) (hrest : SlotsFrom j rest) :
    SlotsFrom i (i :: rest)

theorem slotsFrom_all : SlotsFrom .vbattery Slot.all := .cons rfl (.cons rfl (.cons rfl (.cons rfl .last)))

theorem fieldMissing_eq_false_iff {m : Memory} {flags : Byte} {i : Slot} (h : fieldStart flags i ≤ m.len) :
    fieldMissing m flags i = false ↔ fieldStart flags i + widthIn flags i ≤ m.len := by
  cases hsel : i.selected flags <;> simp [fieldMissing, widthIn, hsel, h]

/-- From slot i on no field is missing exactly where the whole message fits: the fields lie one after the other. -/
theorem SlotsFrom.find?_fieldMissing_eq_none_iff {i : Slot} {slots : List Slot} (hslots : SlotsFrom i slots)
    {m : Memory} {flags : Byte} (h : fieldStart flags i ≤ m.len) :
    slots.find? (fieldMissing m flags) = none ↔ messageLength flags ≤ m.len := by
  induction hslots with
  | last =>
    rw [List.find?_singleton]
    simpa [messageLength] using fieldMissing_eq_false_iff h
  | @cons i j rest hindex _ ih =>
    rw [fieldStart_of_index hindex] at ih
    cases hm : fieldMissing m flags i with
    | false => simpa [hm] using ih ((fieldMissing_eq_false_iff h).1 hm)
    | true =>
      have hshort : ¬fieldStart flags i + widthIn flags i ≤ m.len := by simp [← fieldMissing_eq_false_iff h, hm]
      simpa [hm] using (not_le.1 hshort).trans_le (fieldEnd_le_messageLength flags i)

theorem firstMissing_eq_none_iff {m : Memory} (flags : Byte) (h : 2 ≤ m.len) :
    firstMissing m flags = none ↔ messageLength flags ≤ m.len :=
  slotsFrom_all.find?_fieldMissing_eq_none_iff h

/-! ### What a slot's operation decodes (44_message_decoder.md R100 to R104) -/

theorem rawOfBytes_eq_wordAt (m : Memory) (a : Nat) : rawOfBytes (m.byte a) (m.byte (a + 1)) = wordAt m a := by
  have hlt := (rawOfBytes (m.byte a) (m.byte (a + 1))).isLt
  rw [rawOfBytes_toNat] at hlt
  exact BitVec.eq_of_toNat_eq (by rw [rawOfBytes_toNat, wordAt, rawAt, BitVec.toNat_ofNat, Nat.mod_eq_of_lt hlt])

/-- The value of slot i whose field begins at an offset. -/
def fieldValue (m : Memory) (a : Nat) : (i : Slot) → SlotValue i
  | .vbattery => voltageOfRaw (wordAt m a)
  | .vsystem => voltageOfRaw (wordAt m a)
  | .boot => m.byte a
  | .temperatureC => temperatureOfRaw (wordAt m a)
  | .differentialPressure => pressureOfRaw (wordAt m a)

/-- The record with another value in one slot. -/
def Record.set (r : Record) : (i : Slot) → SlotValue i → Record
  | .vbattery, x => { r with vbattery := some x }
  | .vsystem, x => { r with vsystem := some x }
  | .boot, b => { r with boot := some b }
  | .temperatureC, x => { r with temperatureC := some x }
  | .differentialPressure, x => { r with differentialPressure := some x }

theorem State.put_eq (s : State) (i : Slot) (x : SlotValue i) :
    s.put i x = { s with record := s.record.set i x, pres := withPresent s.pres i } := by cases i <;> rfl

theorem selectField_fits {i : Slot} {s : State} (h : s.off + fieldWidth i ≤ s.seq.len) :
    selectField i s = ((s.advance (fieldWidth i)).put i (fieldValue s.seq s.off i)).nextField i := by
  cases i
  case boot => exact (select8_cases _ _ s).elim (·.2) fun hmissing => absurd h hmissing.1.not_ge
  all_goals
    refine (select16_cases _ _ s).elim (fun hfits => hfits.2.trans ?_) fun hmissing => absurd h hmissing.1.not_ge
    rw [rawOfBytes_eq_wordAt]
    rfl

theorem selectField_missing {i : Slot} {s : State} (h : s.seq.len < s.off + fieldWidth i) :
    selectField i s = s.faultEntry :=
  (selectField_cases i s).elim (fun hfits => absurd hfits.1 h.not_ge) (·.2)

/-! ### The whole pass in closed form (44_message_decoder.md R109) -/

/-- The record with slot i taken from its field of the message, where its bit is set. -/
def takeField (m : Memory) (flags : Byte) (r : Record) (i : Slot) : Record :=
  if i.selected flags then r.set i (fieldValue m (fieldStart flags i) i) else r

/-- PRES with the bit of slot i, where its bit of the bitmap is set. -/
def takePresence (flags : Byte) (pres : BitVec 5) (i : Slot) : BitVec 5 :=
  if i.selected flags then withPresent pres i else pres

/-- The fields of these slots are taken in turn. -/
def State.takeFields (s : State) (slots : List Slot) : State :=
  { s with record := slots.foldl (takeField s.seq s.flags) s.record,
           pres := slots.foldl (takePresence s.flags) s.pres }

/-- OFF is written. -/
def State.atOffset (s : State) (o : Nat) : State := { s with off := o }

@[simp] theorem State.takeFields_seq (s : State) (slots : List Slot) : (s.takeFields slots).seq = s.seq := rfl
@[simp] theorem State.takeFields_flags (s : State) (slots : List Slot) : (s.takeFields slots).flags = s.flags := rfl
@[simp] theorem State.atOffset_seq (s : State) (o : Nat) : (s.atOffset o).seq = s.seq := rfl
@[simp] theorem State.atOffset_flags (s : State) (o : Nat) : (s.atOffset o).flags = s.flags := rfl
@[simp] theorem State.atOffset_off (s : State) (o : Nat) : (s.atOffset o).off = o := rfl

/-- Where step 5 ends that has these slots before it: fault entry at the missing field, or every field taken. -/
def State.fieldsEnd (s : State) (slots : List Slot) : Option Slot → State
  | some i => (s.atOffset (fieldStart s.flags i)).faultEntry
  | none => ((s.takeFields slots).atOffset (messageLength s.flags)).finishOk

/-- OFF and PHASE are written at the end, whatever they held. -/
theorem State.fieldsEnd_moved (s : State) (o : Nat) (p : Phase) (slots : List Slot) (missing : Option Slot) :
    ((s.atOffset o).enter p).fieldsEnd slots missing = s.fieldsEnd slots missing := by
  cases missing <;> rfl

theorem State.fieldsEnd_takeFields (s : State) (i : Slot) (rest : List Slot) (missing : Option Slot) :
    (s.takeFields [i]).fieldsEnd rest missing = s.fieldsEnd (i :: rest) missing := by
  cases missing <;> rfl

theorem fieldPhase_missing {i : Slot} {s : State} (hoff : s.off = fieldStart s.flags i)
    (h : fieldMissing s.seq s.flags i = true) : fieldPhase i s = s.faultEntry := by
  obtain ⟨hsel, hlen⟩ : i.selected s.flags = true ∧ s.seq.len < s.off + fieldWidth i := by
    simpa [fieldMissing, hoff] using h
  rcases fieldPhase_cases i s with ⟨-, heq⟩ | ⟨hclear, -⟩
  · rw [heq, selectField_missing hlen]
  · simp [hsel] at hclear

theorem fieldPhase_fits {i : Slot} {s : State} (hoff : s.off = fieldStart s.flags i)
    (h : fieldMissing s.seq s.flags i = false) :
    fieldPhase i s = ((s.takeFields [i]).atOffset (fieldStart s.flags i + widthIn s.flags i)).nextField i := by
  rcases fieldPhase_cases i s with ⟨hset, heq⟩ | ⟨hclear, heq⟩ <;> rw [heq]
  · have hlen : s.off + fieldWidth i ≤ s.seq.len := by simpa [fieldMissing, hset, hoff] using h
    rw [selectField_fits hlen, State.put_eq]
    simp [State.takeFields, takeField, takePresence, hset, State.advance, State.atOffset, widthIn, hoff]
  · simp [State.takeFields, takeField, takePresence, hclear, State.atOffset, widthIn, ← hoff]

/-- Step 5 from slot i on, with the cursor where the field of slot i begins. -/
theorem SlotsFrom.fieldPhases_eq {i : Slot} {slots : List Slot} (hslots : SlotsFrom i slots) {s : State}
    (hoff : s.off = fieldStart s.flags i) :
    fieldPhases slots s = s.fieldsEnd slots (slots.find? (fieldMissing s.seq s.flags)) := by
  induction hslots generalizing s with
  | last =>
    rw [fieldPhases, fieldPhases, ite_self, List.find?_singleton]
    cases hm : fieldMissing s.seq s.flags .differentialPressure with
    | false => exact fieldPhase_fits hoff hm
    | true =>
      rw [if_pos rfl, State.fieldsEnd, ← hoff]
      exact fieldPhase_missing hoff hm
  | @cons i j rest hindex _ ih =>
    rw [fieldPhases]
    cases hm : fieldMissing s.seq s.flags i with
    | false =>
      rw [fieldPhase_fits hoff hm, nextField_of_index hindex, List.find?_cons_of_neg (by simp [hm]),
        ← State.fieldsEnd_takeFields, ← State.fieldsEnd_moved]
      exact ih (fieldStart_of_index hindex s.flags).symm
    | true =>
      rw [fieldPhase_missing hoff hm, List.find?_cons_of_pos hm, State.fieldsEnd, ← hoff]
      rfl

/-- The three tests of phase ENV are those of `envelopeMatches`. -/
theorem envelopePhase_eq (s : State) :
    envelopePhase s = if envelopeMatches s then s.initCursor.enter .bmp else s.finishNotApplicable := by
  have henv : envelopeMatches s = (portAccepted s && (s.seq.len != 0 && s.seq.byte 0 == formatByte)) := rfl
  rw [henv, envelopePhase, decodeEnv]
  cases portAccepted s with
  | false => rfl
  | true =>
    by_cases hlen : s.seq.len = 0
    · simp [hlen]
    · by_cases hbyte : s.seq.byte 0 = formatByte <;> simp [hlen, hbyte]

theorem bitmapPhase_of_envelope (s : State) :
    bitmapPhase (s.initCursor.enter .bmp) =
      if s.seq.len < 2 then s.initCursor.faultEntry
      else ((s.latchFlags (s.seq.byte 1)).atOffset 2).enter (.field .vbattery) := by
  rcases bitmapPhase_cases (s.initCursor.enter .bmp) with ⟨hlen, heq⟩ | ⟨hlen, heq⟩ <;> rw [heq]
  · exact (if_neg hlen.not_gt).symm
  · exact (if_pos hlen).symm

/-- DECODE from any state: not applicable, a missing bitmap, or the end of step 5. -/
theorem messagePass_eq (s : State) :
    messagePass s =
      if envelopeMatches s then
        if s.seq.len < 2 then s.initCursor.faultEntry
        else (s.latchFlags (s.seq.byte 1)).fieldsEnd Slot.all (firstMissing s.seq (s.seq.byte 1))
      else s.finishNotApplicable := by
  rw [messagePass, envelopePhase_eq]
  cases envelopeMatches s with
  | false => rfl
  | true =>
    simp only [if_true, State.enter_phase, reduceCtorEq, if_false, bitmapPhase_of_envelope]
    split
    · rfl
    · simp only [State.enter_phase, reduceCtorEq, if_false]
      rw [slotsFrom_all.fieldPhases_eq rfl, State.fieldsEnd_moved]
      rfl

/-! ### The result of a pass (R53) -/

theorem len_ne_zero_of_envelopeMatches {s : State} (h : envelopeMatches s = true) : s.seq.len ≠ 0 := by
  intro hzero
  simp [envelopeMatches, hzero] at h

/-- Settles O33: RESULT is read off `messagePass_eq`, and no field is missing exactly where the message fits
(`firstMissing_eq_none_iff`). -/
theorem decodeSucceedsExactlyWhenTheMessageFits : Obligations.DecodeSucceedsExactlyWhenTheMessageFits := by
  unfold Obligations.DecodeSucceedsExactlyWhenTheMessageFits
  refine ⟨fun flags => ⟨messageLength_eq flags, two_le_messageLength flags, ?_⟩, rfl, rfl,
    fun s => ⟨_, exec_decode s, ?_⟩⟩
  · rw [messageLength_eq]
    omega
  · rw [messagePass_eq]
    cases henv : envelopeMatches s with
    | false => simp
    | true =>
      have hpos := len_ne_zero_of_envelopeMatches henv
      by_cases hlen : s.seq.len < 2
      · have hone : s.seq.len = 1 := by omega
        simp [hone]
      · have hne : s.seq.len ≠ 1 := by omega
        have hfits := firstMissing_eq_none_iff (s.seq.byte 1) (not_lt.1 hlen)
        have hshort : s.seq.len < messageLength (s.seq.byte 1) ↔ ¬firstMissing s.seq (s.seq.byte 1) = none := by
          rw [hfits, not_le]
        rw [if_neg hne, ← hfits, hshort]
        cases firstMissing s.seq (s.seq.byte 1) <;> simp [hlen, State.fieldsEnd]

/-! ### What a pass does not depend on (R62, R66) -/

theorem fieldValue_congr {m m' : Memory} {a : Nat} {i : Slot}
    (h : ∀ k, a ≤ k → k < a + fieldWidth i → m.byte k = m'.byte k) : fieldValue m a i = fieldValue m' a i := by
  have hfirst : m.byte a = m'.byte a := h a le_rfl (by cases i <;> simp [fieldWidth])
  cases i
  case boot => exact hfirst
  all_goals
    have hword : wordAt m a = wordAt m' a := by
      rw [wordAt, wordAt, rawAt, rawAt, hfirst, h (a + 1) (Nat.le_succ a) (by simp [fieldWidth])]
    unfold fieldValue
    rw [hword]

theorem selected_congr {flags flags' : Byte} (h : flags.toNat % 32 = flags'.toNat % 32) (i : Slot) :
    i.selected flags = i.selected flags' := by
  rw [Bool.eq_iff_iff, selected_iff, selected_iff]
  cases i <;> simp only [Slot.index] <;> omega

/-- The state with another ByteSequence. -/
def State.withSeq (s : State) (m : Memory) : State := { s with seq := m }

@[simp] theorem State.withSeq_seq (s : State) (m : Memory) : (s.withSeq m).seq = m := rfl

section SameSelection
variable {flags flags' : Byte} (hsel : ∀ i : Slot, i.selected flags = i.selected flags')
include hsel

theorem widthIn_congr (i : Slot) : widthIn flags i = widthIn flags' i := by rw [widthIn, widthIn, hsel]

theorem fieldStart_congr (i : Slot) : fieldStart flags i = fieldStart flags' i := by
  cases i <;> simp only [fieldStart, widthIn_congr hsel]

theorem messageLength_congr : messageLength flags = messageLength flags' := by
  rw [messageLength, messageLength, fieldStart_congr hsel, widthIn_congr hsel]

theorem firstMissing_congr {m m' : Memory} (hlen : m.len = m'.len) : firstMissing m flags = firstMissing m' flags' := by
  have hmissing : fieldMissing m flags = fieldMissing m' flags' := by
    funext i
    rw [fieldMissing, fieldMissing, hsel, hlen, fieldStart_congr hsel]
  rw [firstMissing, firstMissing, hmissing]

theorem takePresence_congr : takePresence flags = takePresence flags' := by
  funext pres i
  rw [takePresence, takePresence, hsel]

/-- A selected field lies between the bitmap and the end of the message, so it is read from those bytes alone. -/
theorem takeField_congr {m m' : Memory} (hbytes : ∀ k, 2 ≤ k → k < messageLength flags → m.byte k = m'.byte k) :
    takeField m flags = takeField m' flags' := by
  funext r i
  rw [takeField, takeField, ← hsel, ← fieldStart_congr hsel]
  by_cases hi : i.selected flags = true
  · have hend : fieldStart flags i + fieldWidth i ≤ messageLength flags := by
      simpa [widthIn, hi] using fieldEnd_le_messageLength flags i
    rw [fieldValue_congr fun k hk hlt => hbytes k ((two_le_fieldStart flags i).trans hk) (hlt.trans_le hend)]
  · rw [if_neg hi, if_neg hi]

/-- The end of step 5 shows nothing else of B and of the bitmap but these two themselves. -/
theorem fieldsEnd_congr {m m' : Memory} (hbytes : ∀ k, 2 ≤ k → k < messageLength flags → m.byte k = m'.byte k)
    (s : State) (missing : Option Slot) :
    ((s.withSeq m').latchFlags flags').fieldsEnd Slot.all missing =
      ((((s.withSeq m).latchFlags flags).fieldsEnd Slot.all missing).withSeq m').latchFlags flags' := by
  cases missing with
  | some i =>
    simp only [State.fieldsEnd, State.latchFlags, State.withSeq, State.atOffset, State.faultEntry,
      fieldStart_congr hsel]
  | none =>
    simp only [State.fieldsEnd, State.takeFields, State.latchFlags, State.withSeq, State.atOffset, State.finishOk,
      takeField_congr hsel hbytes, takePresence_congr hsel, messageLength_congr hsel]

end SameSelection

theorem messagePass_ofBytes (s : State) (byte0 flags : Byte) (rest : List Byte) :
    messagePass (s.withSeq (Memory.ofBytes (byte0 :: flags :: rest))) =
      if portAccepted s && byte0 == formatByte then
        ((s.withSeq (Memory.ofBytes (byte0 :: flags :: rest))).latchFlags flags).fieldsEnd Slot.all
          (firstMissing (Memory.ofBytes (byte0 :: flags :: rest)) flags)
      else (s.withSeq (Memory.ofBytes (byte0 :: flags :: rest))).finishNotApplicable := by
  have hbyte0 : (Memory.ofBytes (byte0 :: flags :: rest)).byte 0 = byte0 := Memory.byte_ofBytes rfl
  have hbyte1 : (Memory.ofBytes (byte0 :: flags :: rest)).byte 1 = flags := Memory.byte_ofBytes rfl
  have hlen : ¬(Memory.ofBytes (byte0 :: flags :: rest)).len < 2 := by simp
  have henv : envelopeMatches (s.withSeq (Memory.ofBytes (byte0 :: flags :: rest))) =
      (portAccepted s && byte0 == formatByte) := by
    rw [envelopeMatches, State.withSeq_seq, hbyte0]
    rfl
  rw [messagePass_eq, henv, State.withSeq_seq, hbyte1, if_neg hlen]

theorem Memory.byte_ofBytes_of_two_le (byte0 byte1 : Byte) (rest : List Byte) {k : Nat} (hk : 2 ≤ k) :
    (Memory.ofBytes (byte0 :: byte1 :: rest)).byte k = lookupCell (cellsFrom 2 rest) k := by
  rw [Memory.byte, Memory.ofBytes, lookupCell_cellsFrom_cons, if_neg (by omega), lookupCell_cellsFrom_cons,
    if_neg (by omega)]

theorem Memory.byte_ofBytes_append {bytes : List Byte} (extra : List Byte) {k : Nat} (hk : k < bytes.length) :
    (Memory.ofBytes bytes).byte k = (Memory.ofBytes (bytes ++ extra)).byte k := by
  have hget := List.getElem?_eq_getElem hk
  rw [Memory.byte_ofBytes hget, Memory.byte_ofBytes ((List.getElem?_append_left hk).trans hget)]

/-- Settles O38: the two bitmaps select the same slots, and the fields that follow them are the same bytes
(`fieldsEnd_congr`); 0xE0 selects no slot. -/
theorem reservedBitmapBitsAreIgnored : Obligations.ReservedBitmapBitsAreIgnored := by
  unfold Obligations.ReservedBitmapBitsAreIgnored
  refine ⟨fun s byte0 flags flags' rest hlow => ?_, fun s hport hrecord => ?_⟩
  · refine ⟨_, _, exec_decode _, exec_decode _, ?_⟩
    change ((messagePass (s.withSeq _)).withSeq _).latchFlags _ = ((messagePass (s.withSeq _)).withSeq _).latchFlags _
    have hsel := selected_congr hlow
    have hbytes : ∀ k, 2 ≤ k → k < messageLength flags →
        (Memory.ofBytes (byte0 :: flags :: rest)).byte k = (Memory.ofBytes (byte0 :: flags' :: rest)).byte k := by
      intro k hk _
      rw [Memory.byte_ofBytes_of_two_le _ _ _ hk, Memory.byte_ofBytes_of_two_le _ _ _ hk]
    have hlen : (Memory.ofBytes (byte0 :: flags :: rest)).len = (Memory.ofBytes (byte0 :: flags' :: rest)).len := rfl
    rw [messagePass_ofBytes, messagePass_ofBytes]
    split
    · rw [fieldsEnd_congr hsel hbytes, firstMissing_congr hsel hlen]
      rfl
    · rfl
  · refine ⟨_, exec_decode _, ?_⟩
    change (messagePass (s.withSeq _)).result = _ ∧ (messagePass (s.withSeq _)).record = _ ∧
      (messagePass (s.withSeq _)).pres = _ ∧ (messagePass (s.withSeq _)).flags = _
    have henv : (portAccepted s && 0x1F#8 == formatByte) = true := by
      simpa [portAccepted, servedPort, formatByte] using hport
    have hfits : firstMissing (Memory.ofBytes [0x1F#8, 0xE0#8]) 0xE0#8 = none := rfl
    have hclear (i : Slot) : i.selected 0xE0#8 = false := by cases i <;> rfl
    rw [messagePass_ofBytes, if_pos henv, hfits]
    refine ⟨rfl, (List.foldl_fixed' (fun i => ?_) _).trans hrecord, List.foldl_fixed' (fun i => ?_) _, rfl⟩
    · simp [takeField, hclear]
    · simp [takePresence, hclear]

/-- Settles O39: no field is missing in either message, and the bytes below the message's length are the same
(`fieldsEnd_congr`). -/
theorem trailingBytesHaveNoEffect : Obligations.TrailingBytesHaveNoEffect := by
  unfold Obligations.TrailingBytesHaveNoEffect
  intro s byte0 flags fields extra hfits
  refine ⟨_, _, exec_decode _, exec_decode _, ?_⟩
  change (messagePass (s.withSeq _)).withSeq _ = (messagePass (s.withSeq _)).withSeq _
  have hbytes : ∀ k, 2 ≤ k → k < messageLength flags →
      (Memory.ofBytes (byte0 :: flags :: fields)).byte k =
        (Memory.ofBytes (byte0 :: flags :: (fields ++ extra))).byte k :=
    fun _ _ hlt => Memory.byte_ofBytes_append extra (hlt.trans_le hfits)
  have hnone : firstMissing (Memory.ofBytes (byte0 :: flags :: fields)) flags = none :=
    (firstMissing_eq_none_iff flags (by simp)).2 hfits
  have hnone' : firstMissing (Memory.ofBytes (byte0 :: flags :: (fields ++ extra))) flags = none :=
    (firstMissing_eq_none_iff flags (by simp)).2 (hfits.trans (by simp))
  rw [messagePass_ofBytes, messagePass_ofBytes, hnone, hnone']
  split
  · rw [fieldsEnd_congr (fun _ => rfl) hbytes]
    rfl
  · rfl

end Sys2Proof.Machine

/-! ## The Cursor's reads (40_cursor_reads.md)

What READU8 and READU16 leave, and how far OFF moves in one step. A primitive command's two end states are said once for
each width, for whatever value the command makes of the bytes at OFF. -/
namespace Sys2Proof.Machine

/-! ### The two end states of a primitive command (R69, R70; 44_message_decoder.md R112, 60_exceptions.md R122) -/

theorem wordAt_toNat (m : Memory) (a : Nat) : (wordAt m a).toNat = rawAt m a := by
  rw [← rawOfBytes_eq_wordAt, rawOfBytes_toNat, rawAt]

section EndStates
variable {s : State}

theorem primitive8_fits (value : Byte → Value) (h : s.off + 1 ≤ s.seq.len) :
    primitive8 value s = afterValue s 1 (value (s.seq.byte s.off)) :=
  (primitive8_cases value s).elim (·.2) fun hmissing => absurd h hmissing.1.not_ge

theorem primitive8_missing (value : Byte → Value) (h : s.seq.len < s.off + 1) :
    primitive8 value s = afterOutOfRange s :=
  (primitive8_cases value s).elim (fun hfits => absurd hfits.1 h.not_ge) (·.2)

theorem primitive16_fits (value : Raw → Value) (h : s.off + 2 ≤ s.seq.len) :
    primitive16 value s = afterValue s 2 (value (wordAt s.seq s.off)) := by
  rw [← rawOfBytes_eq_wordAt]
  exact (primitive16_cases value s).elim (·.2) fun hmissing => absurd h hmissing.1.not_ge

theorem primitive16_missing (value : Raw → Value) (h : s.seq.len < s.off + 2) :
    primitive16 value s = afterOutOfRange s :=
  (primitive16_cases value s).elim (fun hfits => absurd hfits.1 h.not_ge) (·.2)

end EndStates

theorem exec_readu8 (s : State) : exec .readu8 s = .next (primitive8 (fun v => .unsigned v.toNat) s) := rfl

theorem exec_readu16 (s : State) : exec .readu16 s = .next (primitive16 (fun raw => .unsigned raw.toNat) s) := rfl

/-- Settles O11, by the two end states of a command of width 1. -/
theorem readu8ReturnsTheByteAtTheCursor : Obligations.Readu8ReturnsTheByteAtTheCursor := by
  unfold Obligations.Readu8ReturnsTheByteAtTheCursor
  intro s
  rw [exec_readu8]
  exact ⟨fun hfits => congrArg _ (primitive8_fits _ hfits), fun hmissing => congrArg _ (primitive8_missing _ hmissing)⟩

/-- Settles O12, by the two end states of a command of width 2; the word at OFF is big-endian (`wordAt_toNat`). -/
theorem readu16ReturnsTheBigEndianValue : Obligations.Readu16ReturnsTheBigEndianValue := by
  unfold Obligations.Readu16ReturnsTheBigEndianValue
  intro s
  rw [exec_readu16]
  refine ⟨fun hfits => ?_, fun hmissing => congrArg _ (primitive16_missing _ hmissing)⟩
  rw [primitive16_fits _ hfits, wordAt_toNat]

/-! ### The cursor moves only past bytes that were read (R72) -/

/-- From s to t, OFF stayed or moved past one read of at most two bytes that lie below LEN. -/
def CursorMoved (s t : State) : Prop :=
  t.off = s.off ∨ ∃ n, n ≤ 2 ∧ s.off + n ≤ s.seq.len ∧ t.off = s.off + n

theorem CursorMoved.bounds {s t : State} (h : CursorMoved s t) :
    s.off ≤ t.off ∧ t.off ≤ s.off + 2 ∧ (s.off ≤ s.seq.len → t.off ≤ s.seq.len) := by
  rcases h with hstay | ⟨n, hn, hfits, hmove⟩ <;> omega

@[simp] theorem State.put_off (s : State) (i : Slot) (x : SlotValue i) : (s.put i x).off = s.off := by
  cases i <;> rfl

@[simp] theorem State.nextField_off (s : State) (i : Slot) : (s.nextField i).off = s.off := by cases i <;> rfl

theorem fieldWidth_le_two (i : Slot) : fieldWidth i ≤ 2 := by cases i <;> decide

theorem primitive8_cursorMoved (value : Byte → Value) (s : State) : CursorMoved s (primitive8 value s) := by
  rcases primitive8_cases value s with ⟨hfits, heq⟩ | ⟨-, heq⟩ <;> rw [heq]
  · exact .inr ⟨1, by decide, hfits, rfl⟩
  · exact .inl rfl

theorem primitive16_cursorMoved (value : Raw → Value) (s : State) : CursorMoved s (primitive16 value s) := by
  rcases primitive16_cases value s with ⟨hfits, heq⟩ | ⟨-, heq⟩ <;> rw [heq]
  · exact .inr ⟨2, le_rfl, hfits, rfl⟩
  · exact .inl rfl

theorem bitmapPhase_cursorMoved (s : State) : CursorMoved s (bitmapPhase s) := by
  rcases bitmapPhase_cases s with ⟨hfits, heq⟩ | ⟨-, heq⟩ <;> rw [heq]
  · exact .inr ⟨1, by decide, hfits, rfl⟩
  · exact .inl rfl

theorem selectField_cursorMoved (i : Slot) (s : State) : CursorMoved s (selectField i s) := by
  rcases selectField_cases i s with ⟨hfits, x, heq⟩ | ⟨-, heq⟩ <;> rw [heq]
  · exact .inr ⟨fieldWidth i, fieldWidth_le_two i, hfits, by simp⟩
  · exact .inl rfl

theorem fieldPhase_cursorMoved (i : Slot) (s : State) : CursorMoved s (fieldPhase i s) := by
  rcases fieldPhase_cases i s with ⟨-, heq⟩ | ⟨-, heq⟩ <;> rw [heq]
  · exact selectField_cursorMoved i s
  · exact .inl (State.nextField_off s i)

theorem exec_command_cursorMoved {s t : State} {i : Instr} (hi : decodeCmd s.cmd = .ok i) (hne : i ≠ .decode)
    (h : exec i s = .next t) : CursorMoved s t := by
  rcases primitiveWidth_of_decodeCmd hi hne with ⟨hw, -⟩ | hw
  · obtain ⟨value, hexec⟩ := exec_of_primitiveWidth_one hw
    obtain rfl : primitive8 value s = t := by simpa [hexec] using h
    exact primitive8_cursorMoved value s
  · obtain ⟨value, hexec⟩ := exec_of_primitiveWidth_two hw
    obtain rfl : primitive16 value s = t := by simpa [hexec] using h
    exact primitive16_cursorMoved value s

/-- Phase ENV is the one row that sets OFF instead of moving it (44_message_decoder.md R97, R110). -/
theorem phaseStep_cursorMoved {s t : State} (henv : s.phase ≠ .env) (hstep : phaseStep s = .next t) :
    CursorMoved s t := by
  rcases phaseStep_cases hstep with ⟨-, rfl⟩ | ⟨hp, -⟩ | ⟨-, rfl⟩ | ⟨i, -, rfl⟩ | ⟨-, i, hi, hne, hexec⟩
  · exact .inl rfl
  · exact absurd hp henv
  · exact bitmapPhase_cursorMoved s
  · exact fieldPhase_cursorMoved i s
  · exact exec_command_cursorMoved hi hne hexec

/-- A BUSY core that is not reset takes the row of its phase, whatever else the host does. -/
theorem phaseStep_of_busy {s t : State} (hbusy : s.phase.busy = true) (hreset : ∀ rest, s.host ≠ .reset :: rest)
    (hstep : step s = .next t) : phaseStep (s.withHost s.host.tail) = .next t := by
  rcases step_cases hstep with ⟨rest, hhost, -⟩ | ⟨_, _, _, _, _, _, -, hidle, -⟩ | ⟨_, -, hidle, -⟩ | ⟨-, hrow⟩
  · exact absurd hhost (hreset rest)
  · simp [hbusy] at hidle
  · simp [hbusy] at hidle
  · exact hrow

/-- Settles O46: a BUSY core that is not reset takes the row of its phase, and past ENV no row does more than move the
cursor past the bytes it read (`phaseStep_cursorMoved`). -/
theorem cursorNeverMovesBack : Obligations.CursorNeverMovesBack := by
  unfold Obligations.CursorNeverMovesBack
  intro s t hbusy henv hreset hstep
  have hrow := phaseStep_of_busy hbusy hreset hstep
  exact (phaseStep_cursorMoved (s := s.withHost s.host.tail) henv hrow).bounds

end Sys2Proof.Machine


/-! ## The integer decoders (41_integer_decoders.md)

DECU16 is READU16 under another name (R73); DECI16 gives the two's complement of the word at OFF (R74). -/
namespace Sys2Proof.Machine

theorem exec_decu16_eq_exec_readu16 (s : State) : exec .decu16 s = exec .readu16 s := rfl

theorem exec_deci16 (s : State) : exec .deci16 s = .next (primitive16 (fun raw => .signed (i16OfRaw raw)) s) := rfl

/-- Settles O13: DECU16 is READU16, whose end states O12 says. -/
theorem decu16ReturnsTheRawValue : Obligations.Decu16ReturnsTheRawValue := by
  unfold Obligations.Decu16ReturnsTheRawValue
  intro s
  rw [exec_decu16_eq_exec_readu16]
  exact readu16ReturnsTheBigEndianValue s

/-- The top bit is set exactly from 32768 on, so it selects the same case as the comparison in `signedAt` (R74). -/
theorem i16OfRaw_wordAt (m : Memory) (a : Nat) : i16OfRaw (wordAt m a) = signedAt m a := by
  have hraw := wordAt_toNat m a
  rw [i16OfRaw_eq_toInt, BitVec.toInt_eq_toNat_cond, hraw, signedAt]
  split <;> split <;> omega

/-- Settles O14, by the two end states of a command of width 2; the signed word at OFF is `i16OfRaw_wordAt`. -/
theorem deci16ReturnsTheSignedValue : Obligations.Deci16ReturnsTheSignedValue := by
  unfold Obligations.Deci16ReturnsTheSignedValue
  intro s
  rw [exec_deci16]
  refine ⟨fun hfits => ?_, fun hmissing => congrArg _ (primitive16_missing _ hmissing)⟩
  rw [primitive16_fits _ hfits, i16OfRaw_wordAt]

/-- The signed value differs from the unsigned one by a multiple of 65536. -/
theorem i16OfRaw_emod (raw : Raw) : i16OfRaw raw % 65536 = raw.toNat := by
  rw [i16OfRaw_eq_toInt, BitVec.toInt_eq_toNat_bmod]
  exact Int.bmod_emod.trans (Int.emod_eq_of_lt (Int.natCast_nonneg _) (by exact_mod_cast raw.isLt))

theorem i16OfRaw_bounds (raw : Raw) : -32768 ≤ i16OfRaw raw ∧ i16OfRaw raw ≤ 32767 := by
  rw [i16OfRaw_eq_toInt]
  exact ⟨raw.le_toInt, Int.le_of_lt_add_one raw.toInt_lt⟩

theorem i16OfRaw_injective : Function.Injective i16OfRaw := by
  intro raw raw' h
  rwa [i16OfRaw_eq_toInt, i16OfRaw_eq_toInt, BitVec.toInt_inj] at h

theorem i16OfRaw_ofInt {z : Int} (hlow : -32768 ≤ z) (hhigh : z ≤ 32767) : i16OfRaw (BitVec.ofInt 16 z) = z := by
  rw [i16OfRaw_eq_toInt]
  exact BitVec.toInt_ofInt_eq_self (by decide) hlow (Int.lt_add_one_of_le hhigh)

/-- Settles O15: z mod 65536 is the raw value of z (`i16OfRaw_ofInt`), and the only one (`i16OfRaw_injective`). -/
theorem deci16RoundTripsAndIsOnto : Obligations.Deci16RoundTripsAndIsOnto := by
  unfold Obligations.Deci16RoundTripsAndIsOnto
  refine ⟨fun raw => ⟨i16OfRaw_emod raw, i16OfRaw_bounds raw⟩, fun z hlow hhigh => ?_⟩
  have hz := i16OfRaw_ofInt hlow hhigh
  exact ⟨BitVec.ofInt 16 z, hz, fun other hother => i16OfRaw_injective (hother.trans hz.symm)⟩

end Sys2Proof.Machine

/-! ## Arithmetic on dyadic numbers (42_compact_float.md R81)

A sign, a mantissa and a power of two: `(-1)^s * m * 2^e`. While the mantissa stays below 2^53, no product of such numbers
and no quotient by a power of two is rounded. So the sign, the mantissa and the exponent of a decoded field can be followed
through the operations of its decoder one by one. -/
namespace Sys2Proof.Machine

/-- The number `(-1)^neg * m * 2^e`. -/
def dyadic (neg : Bool) (m : Nat) (e : Int) : ℚ := (if neg then -1 else 1) * ((m : ℚ) * 2 ^ e)

/-- x is finite, has this sign bit (a zero too) and stands for `(-1)^neg * m * 2^e`. -/
structure IsDyadic (x : F64) (neg : Bool) (m : Nat) (e : Int) : Prop where
  finite : f64Finite x = true
  sign : f64Sign x = neg
  val : f64Val x = dyadic neg m e

theorem abs_dyadic (neg : Bool) (m : Nat) (e : Int) : |dyadic neg m e| = m * 2 ^ e := by
  have hmag : (0 : ℚ) ≤ m * 2 ^ e := by positivity
  cases neg <;> simp [dyadic, abs_of_nonneg hmag]

theorem dyadic_mul (s t : Bool) (m n : Nat) (e k : Int) :
    dyadic s m e * dyadic t n k = dyadic (s ^^ t) (m * n) (e + k) := by
  have hsign : (if s ^^ t then (-1 : ℚ) else 1) = (if s then -1 else 1) * (if t then -1 else 1) := by
    cases s <;> cases t <;> norm_num
  rw [dyadic, dyadic, dyadic, hsign, zpow_add₀ two_ne_zero]
  push_cast
  ring

theorem dyadic_div_pow (s t : Bool) (m : Nat) (e k : Int) :
    dyadic s m e / dyadic t 1 k = dyadic (s ^^ t) m (e - k) := by
  have hne : dyadic t 1 k ≠ 0 := by
    rw [← abs_pos, abs_dyadic]
    positivity
  rw [div_eq_iff hne, dyadic_mul]
  simp

theorem mul_zpow_lt {m : Nat} {e l : Int} (hm : m < 2 ^ 53) (hl : 53 + e ≤ l) : (m : ℚ) * 2 ^ e < 2 ^ l := by
  have hmq : (m : ℚ) < 2 ^ (53 : Int) := by exact_mod_cast hm
  calc (m : ℚ) * 2 ^ e < 2 ^ (53 : Int) * 2 ^ e := by gcongr
    _ = 2 ^ (53 + e) := (zpow_add₀ two_ne_zero _ _).symm
    _ ≤ 2 ^ l := zpow_le_zpow_right₀ one_le_two hl

/-- The three fields are the whole pattern. -/
theorem f64_ext {x y : F64} (hs : f64Sign x = f64Sign y) (he : f64Exponent x = f64Exponent y)
    (hf : f64Fraction x = f64Fraction y) : x = y := by
  rw [f64Sign, f64Sign, BitVec.msb_eq_decide, BitVec.msb_eq_decide, decide_eq_decide] at hs
  unfold f64Exponent at he
  unfold f64Fraction at hf
  exact BitVec.eq_of_toNat_eq (by omega)

theorem f64Val_eq_zero_iff (x : F64) : f64Val x = 0 ↔ f64Exponent x = 0 ∧ f64Fraction x = 0 := by
  rw [← abs_eq_zero, f64Val_abs, mul_eq_zero_iff_right (by positivity), Nat.cast_eq_zero, f64Significand]
  split <;> omega

theorem f64Pack_false_zero : f64Pack false 0 = 0x0000000000000000#64 := rfl

theorem f64Pack_true_zero : f64Pack true 0 = 0x8000000000000000#64 := rfl

/-- The only zeros are +0 and -0. -/
theorem f64Val_eq_zero_iff_eq_pack (x : F64) : f64Val x = 0 ↔ x = f64Pack (f64Sign x) 0 := by
  obtain ⟨hs, he, hf⟩ := f64Pack_fields (f64Sign x) 0 0 (by norm_num)
  constructor
  · intro h
    obtain ⟨hexp, hfrac⟩ := (f64Val_eq_zero_iff x).1 h
    exact f64_ext hs.symm (hexp.trans he.symm) (hfrac.trans hf.symm)
  · intro h
    rw [h]
    exact (f64Val_eq_zero_iff _).2 ⟨he, hf⟩

/-- The least normal number is 2^52 of the least unit. -/
theorem two_pow_mul_leastUnit : (2 : ℚ) ^ 52 * 2 ^ (-1074 : Int) = 2 ^ (-1022 : Int) := by
  rw [← zpow_natCast, ← zpow_add₀ two_ne_zero]
  norm_num

/-- A subnormal is smaller than every normal number. -/
theorem zeroOrNormal_of_val {x : F64} (hfinite : f64Finite x = true)
    (hmin : f64Val x ≠ 0 → (2 : ℚ) ^ (-1022 : Int) ≤ |f64Val x|) : ZeroOrNormal x := by
  refine ⟨by simpa [f64Finite] using hfinite, fun hexp => ?_⟩
  by_contra hfrac
  have hle := hmin fun h => hfrac ((f64Val_eq_zero_iff x).1 h).2
  have hlt : (f64Fraction x : ℚ) < 2 ^ 52 := by exact_mod_cast Nat.mod_lt x.toNat (by norm_num)
  rw [f64Val_abs, f64Significand, f64Scale, hexp, if_pos rfl] at hle
  exact (mul_lt_mul_of_pos_right hlt (by positivity)).not_ge (two_pow_mul_leastUnit.trans_le hle)

namespace IsDyadic
variable {x y : F64} {s t r : Bool} {m n p : Nat} {e k l : Int}

theorem abs_val (h : IsDyadic x s m e) : |f64Val x| = m * 2 ^ e := by rw [h.val, abs_dyadic]

theorem val_eq_zero_iff (h : IsDyadic x s m e) : f64Val x = 0 ↔ m = 0 := by
  rw [← abs_eq_zero, h.abs_val, mul_eq_zero_iff_right (by positivity), Nat.cast_eq_zero]

theorem abs_val_le (h : IsDyadic x s m e) (hm : m ≤ n) (he : e ≤ k) : |f64Val x| ≤ n * 2 ^ k := by
  rw [h.abs_val]
  gcongr
  exact one_le_two

theorem le_abs_val (h : IsDyadic x s m e) (he : k ≤ e) (hne : f64Val x ≠ 0) : (2 : ℚ) ^ k ≤ |f64Val x| := by
  have hm : (1 : ℚ) ≤ m := by exact_mod_cast Nat.one_le_iff_ne_zero.2 (mt h.val_eq_zero_iff.2 hne)
  rw [h.abs_val]
  calc (2 : ℚ) ^ k ≤ 2 ^ e := zpow_le_zpow_right₀ one_le_two he
    _ ≤ m * 2 ^ e := le_mul_of_one_le_left (by positivity) hm

theorem eq_zero_iff (h : IsDyadic x s m e) (z : Bool) : x = f64Pack z 0 ↔ m = 0 ∧ s = z := by
  rw [← h.val_eq_zero_iff, f64Val_eq_zero_iff_eq_pack, h.sign]
  constructor
  · intro hx
    have hz : s = z := by rw [← h.sign, hx]; exact (f64Pack_fields z 0 0 (by norm_num)).1
    exact ⟨hz ▸ hx, hz⟩
  · rintro ⟨hx, rfl⟩
    exact hx

theorem zeroOrNormal (h : IsDyadic x s m e) (he : -1022 ≤ e) : ZeroOrNormal x :=
  zeroOrNormal_of_val h.finite (h.le_abs_val he)

/-- A product is exact while its mantissa stays below 2^53. -/
theorem fmul (hx : IsDyadic x s m e) (hy : IsDyadic y t n k) (hr : (s ^^ t) = r) (hp : m * n = p) (hl : e + k = l)
    (hp53 : p < 2 ^ 53) (hlow : -1074 ≤ l) (hhigh : l ≤ 971) : IsDyadic (fmul x y) r p l := by
  subst hr hp hl
  have hval : f64Val x * f64Val y = dyadic (s ^^ t) (m * n) (e + k) := by rw [hx.val, hy.val, dyadic_mul]
  obtain ⟨hfinite, hsign, hexact⟩ := fmul_exact x y hx.finite hy.finite (m * n) (e + k)
    (by rw [hval, abs_dyadic]) hp53 hlow (mul_zpow_lt hp53 (by omega))
  exact ⟨hfinite, by rw [hsign, hx.sign, hy.sign], hexact.trans hval⟩

/-- A quotient by a positive power of two is exact. -/
theorem fdiv_pow (hx : IsDyadic x s m e) (hy : IsDyadic y false 1 k) (hl : e - k = l) (hm : m < 2 ^ 53)
    (hlow : -1074 ≤ l) (hhigh : l ≤ 971) : IsDyadic (fdiv x y) s m l := by
  subst hl
  have hval : f64Val x / f64Val y = dyadic s m (e - k) := by rw [hx.val, hy.val, dyadic_div_pow, Bool.xor_false]
  obtain ⟨hfinite, hsign, hexact⟩ := fdiv_exact x y hx.finite hy.finite (mt hy.val_eq_zero_iff.1 one_ne_zero) m (e - k)
    (by rw [hval, abs_dyadic]) hm hlow (mul_zpow_lt hm (by omega))
  exact ⟨hfinite, by rw [hsign, hx.sign, hy.sign, Bool.xor_false], hexact.trans hval⟩

end IsDyadic

theorem f64Pack_zero_isDyadic (neg : Bool) (e : Int) : IsDyadic (f64Pack neg 0) neg 0 e := by
  obtain ⟨hfinite, hsign, -, hval⟩ := f64Pack_spec neg 0 0 (by norm_num) (by norm_num) (by norm_num)
  exact ⟨hfinite, hsign, hval.trans (by simp [dyadic])⟩

theorem i2f_isDyadic {z : Int} (hz : z.natAbs < 2 ^ 53) : IsDyadic (i2f z) (decide (z < 0)) z.natAbs 0 := by
  obtain ⟨hfinite, hsign, hval⟩ := i2f_spec z hz
  refine ⟨hfinite, hsign, hval.trans ?_⟩
  rw [dyadic, Nat.cast_natAbs, zpow_zero, mul_one]
  rcases lt_or_ge z 0 with h | h
  · simp [h, abs_of_neg h]
  · simp [not_lt.2 h, abs_of_nonneg h]

theorem i2f_natCast_isDyadic {m : Nat} (hm : m < 2 ^ 53) : IsDyadic (i2f m) false m 0 := by
  have hsign : decide ((m : Int) < 0) = false := by simp
  exact hsign ▸ i2f_isDyadic (z := m) hm

theorem i2f_pow_isDyadic (j : Nat) (hj : j < 53) : IsDyadic (i2f ((2 ^ j : Nat) : Int)) false 1 j := by
  obtain ⟨hfinite, hsign, hval⟩ := i2f_natCast_isDyadic (Nat.pow_lt_pow_right one_lt_two hj)
  exact ⟨hfinite, hsign, by rw [hval]; simp [dyadic]⟩

theorem pow2_isDyadic {k : Int} (hlow : -1022 ≤ k) (hhigh : k ≤ 1023) : IsDyadic (pow2 k) false 1 k := by
  obtain ⟨hfinite, hsign, hval⟩ := pow2_spec k hlow hhigh
  exact ⟨hfinite, hsign, by rw [hval]; simp [dyadic]⟩

end Sys2Proof.Machine

/-! ## The compact floats (42_compact_float.md)

UFLT16 decodes to the dyadic number `m * 2^(e - 27)` and SFLT16 to `(-1)^s * m * 2^(e - 26)`, the sign of a zero included
(`uflt16OfRaw_isDyadic`, `sflt16OfRaw_isDyadic`). Values, ranges and zeros are read off these two lemmas. -/
namespace Sys2Proof.Machine

theorem exec_decuflt16 (s : State) : exec .decuflt16 s = .next (primitive16 (fun raw => .float (uflt16OfRaw raw)) s) := rfl

theorem exec_decsflt16 (s : State) : exec .decsflt16 s = .next (primitive16 (fun raw => .float (sflt16OfRaw raw)) s) := rfl

section Fields
variable (raw : Raw)

theorem uflt16Exponent_lt : uflt16Exponent raw < 16 := by have := raw.isLt; unfold uflt16Exponent; omega

theorem uflt16Mantissa_lt : uflt16Mantissa raw < 4096 := Nat.mod_lt _ (by norm_num)

theorem sflt16Exponent_lt : sflt16Exponent raw < 16 := Nat.mod_lt _ (by norm_num)

theorem sflt16Mantissa_lt : sflt16Mantissa raw < 2048 := Nat.mod_lt _ (by norm_num)

theorem sflt16Sign_eq : sflt16Sign raw = decide (32768 ≤ raw.toNat) := raw.msb_eq_decide

/-- The power of two of a compact exponent field is exact (R87). -/
theorem pow2_bias_isDyadic {e : Nat} (he : e < 16) : IsDyadic (pow2 (e - exponentBias)) false 1 (e - 15) :=
  pow2_isDyadic (k := e - 15) (by omega) (by omega)

/-- R81 for UFLT16: dividing by 2^12 and multiplying by `2^(e - 15)` only move the exponent. -/
theorem uflt16OfRaw_isDyadic : IsDyadic (uflt16OfRaw raw) false (uflt16Mantissa raw) (uflt16Exponent raw - 27) := by
  have he := uflt16Exponent_lt raw
  have hm := uflt16Mantissa_lt raw
  have hdivisor : IsDyadic uflt16Divisor false 1 12 := i2f_pow_isDyadic 12 (by norm_num)
  have hmantissa := (i2f_natCast_isDyadic (m := uflt16Mantissa raw) (by omega)).fdiv_pow hdivisor (l := -12)
    (by norm_num) (by omega) (by norm_num) (by norm_num)
  exact hmantissa.fmul (pow2_bias_isDyadic he) rfl (mul_one _) (by omega) (by omega) (by omega) (by omega)

/-- R80, R81 and R83 for SFLT16: the sign factor sets the sign, of a zero too, as the special case does. -/
theorem sflt16OfRaw_isDyadic :
    IsDyadic (sflt16OfRaw raw) (sflt16Sign raw) (sflt16Mantissa raw) (sflt16Exponent raw - 26) := by
  have he := sflt16Exponent_lt raw
  have hm := sflt16Mantissa_lt raw
  rw [sflt16OfRaw]
  split
  next hraw =>
    subst hraw
    exact f64Pack_zero_isDyadic true _
  next =>
    have hfactor : IsDyadic (if sflt16Sign raw then i2f (-1) else i2f 1) (sflt16Sign raw) 1 0 := by
      cases sflt16Sign raw
      · exact i2f_isDyadic (z := 1) (by norm_num)
      · exact i2f_isDyadic (z := -1) (by norm_num)
    have hdivisor : IsDyadic sflt16Divisor false 1 11 := i2f_pow_isDyadic 11 (by norm_num)
    have hmantissa := (i2f_natCast_isDyadic (m := sflt16Mantissa raw) (by omega)).fdiv_pow hdivisor (l := -11)
      (by norm_num) (by omega) (by norm_num) (by norm_num)
    have hsigned := hfactor.fmul hmantissa (Bool.xor_false _) (one_mul _) (zero_add _) (by omega) (by norm_num)
      (by norm_num)
    exact hsigned.fmul (pow2_bias_isDyadic he) (Bool.xor_false _) (mul_one _) (by omega) (by omega) (by omega)
      (by omega)

/-! ### What the two decoders give, as a number (R79 to R82) -/

theorem f64Val_uflt16OfRaw :
    f64Val (uflt16OfRaw raw) = (uflt16Mantissa raw : ℚ) * 2 ^ ((uflt16Exponent raw : Int) - 27) := by
  rw [(uflt16OfRaw_isDyadic raw).val]
  simp [dyadic]

theorem f64Val_sflt16OfRaw :
    f64Val (sflt16OfRaw raw) =
      (if 32768 ≤ raw.toNat then -1 else 1) * ((sflt16Mantissa raw : ℚ) * 2 ^ ((sflt16Exponent raw : Int) - 26)) := by
  rw [(sflt16OfRaw_isDyadic raw).val, dyadic, sflt16Sign_eq]
  simp

end Fields

/-- Settles O18, by `f64Val_uflt16OfRaw` and `f64Val_sflt16OfRaw`. -/
theorem compactFloatsDecodeExactly : Obligations.CompactFloatsDecodeExactly := by
  unfold Obligations.CompactFloatsDecodeExactly
  intro raw
  refine ⟨f64Val_uflt16OfRaw raw, ?_⟩
  have hsign : (-1 : ℚ) ^ (raw.toNat / 32768) = if 32768 ≤ raw.toNat then -1 else 1 := by
    have hlt := raw.isLt
    split
    · rw [show raw.toNat / 32768 = 1 by omega, pow_one]
    · rw [Nat.div_eq_of_lt (by omega), pow_zero]
  rw [hsign, mul_assoc]
  exact f64Val_sflt16OfRaw raw

/-- Multiplying out the power of two of a mantissa's divisor. -/
theorem div_two_pow_mul_zpow (m : ℚ) (j : Nat) (k : Int) : m / 2 ^ j * 2 ^ k = m * 2 ^ (k - j) := by
  rw [zpow_sub₀ two_ne_zero, zpow_natCast]
  ring

/-- Settles O16, by the two end states of a command of width 2 and the exact value of the word at OFF. -/
theorem decuflt16ReturnsTheCompactValue : Obligations.Decuflt16ReturnsTheCompactValue := by
  unfold Obligations.Decuflt16ReturnsTheCompactValue
  intro s
  rw [exec_decuflt16]
  refine ⟨fun hfits => ?_, fun hmissing => congrArg _ (primitive16_missing _ hmissing)⟩
  have hdyadic := uflt16OfRaw_isDyadic (wordAt s.seq s.off)
  refine ⟨congrArg _ (primitive16_fits _ hfits), hdyadic.finite, hdyadic.sign, ?_⟩
  rw [f64Val_uflt16OfRaw, uflt16Mantissa, uflt16Exponent, wordAt_toNat, show (4096 : ℚ) = 2 ^ 12 by norm_num,
    div_two_pow_mul_zpow]
  congr 2
  omega

/-- Settles O17, by the two end states of a command of width 2 and the exact value of the word at OFF; the word 0x8000 is
the special case of R80. -/
theorem decsflt16ReturnsTheCompactValue : Obligations.Decsflt16ReturnsTheCompactValue := by
  unfold Obligations.Decsflt16ReturnsTheCompactValue
  intro s
  rw [exec_decsflt16]
  refine ⟨fun hfits => ?_, fun hmissing => congrArg _ (primitive16_missing _ hmissing)⟩
  have hdyadic := sflt16OfRaw_isDyadic (wordAt s.seq s.off)
  refine ⟨congrArg _ (primitive16_fits _ hfits), fun hraw => ?_, hdyadic.finite, ?_, ?_⟩
  · have hword : wordAt s.seq s.off = 0x8000#16 := congrArg (BitVec.ofNat 16) hraw
    rw [hword]
    rfl
  · rw [hdyadic.sign, sflt16Sign_eq, wordAt_toNat]
  · rw [f64Val_sflt16OfRaw, sflt16Mantissa, sflt16Exponent, wordAt_toNat, mul_assoc,
      show (2048 : ℚ) = 2 ^ 11 by norm_num, div_two_pow_mul_zpow]
    congr 3
    omega

/-- Settles O19: the largest mantissa and exponent field bound the magnitude above; where the mantissa is not 0, the least
exponent field bounds it below. -/
theorem compactFloatsStayBelowOne : Obligations.CompactFloatsStayBelowOne := by
  unfold Obligations.CompactFloatsStayBelowOne
  intro raw
  have hu := uflt16OfRaw_isDyadic raw
  have hs := sflt16OfRaw_isDyadic raw
  have heu := uflt16Exponent_lt raw
  have hes := sflt16Exponent_lt raw
  have hnonneg : 0 ≤ f64Val (uflt16OfRaw raw) := by rw [f64Val_uflt16OfRaw]; positivity
  have habs := abs_of_nonneg hnonneg
  have hlargest := hu.abs_val_le (Nat.le_of_lt_succ (uflt16Mantissa_lt raw)) (k := -12) (by omega)
  have hlargest' := hs.abs_val_le (Nat.le_of_lt_succ (sflt16Mantissa_lt raw)) (k := -11) (by omega)
  have hleast := hu.le_abs_val (k := -27) (by omega)
  rw [habs] at hlargest hleast
  exact ⟨hnonneg, hlargest.trans_eq (by norm_num), hlargest'.trans_eq (by norm_num), hleast, hs.le_abs_val (by omega)⟩

/-- Settles O20: a dyadic number is a zero exactly when its mantissa is 0, and the zero has its sign. -/
theorem compactFloatZerosHaveTheirSign : Obligations.CompactFloatZerosHaveTheirSign := by
  unfold Obligations.CompactFloatZerosHaveTheirSign
  intro raw
  have hu := (uflt16OfRaw_isDyadic raw).eq_zero_iff
  have hs := (sflt16OfRaw_isDyadic raw).eq_zero_iff
  rw [sflt16Sign_eq] at hs
  refine ⟨?_, ?_, ?_, ?_⟩
  · simpa [uflt16Mantissa, f64Pack_false_zero] using hu false
  · exact fun h => absurd ((hu true).1 h).2 Bool.false_ne_true
  · simpa [sflt16Mantissa, f64Pack_false_zero] using hs false
  · simpa [sflt16Mantissa, f64Pack_true_zero] using hs true

/-! ### No infinity, no NaN and no subnormal (R84, 43_scaled_fields.md R92) -/

/-- A number of at least 2^52 units has a significand of at least 2^52 within half a unit. -/
theorem two_pow_le_of_near {U q : ℚ} {m : Nat} (hU : 0 < U) (hq : 2 ^ 52 * U ≤ q) (hhalf : |q - m * U| ≤ U / 2) :
    2 ^ 52 ≤ m := by
  by_contra hlt
  have hsucc : (m : ℚ) + 1 ≤ 2 ^ 52 := by exact_mod_cast Nat.lt_of_not_ge hlt
  have hbelow := mul_le_mul_of_nonneg_right hsucc hU.le
  have hnear := (abs_le.1 hhalf).2
  linarith

/-- A number in the range of the normal numbers, below the top binade, rounds to a normal number. -/
theorem roundNearest_zeroOrNormal (neg : Bool) (n d : Nat) (k : Int) (hd : 0 < d)
    (hlow : n ≠ 0 → (2 : ℚ) ^ (-1022 : Int) ≤ (n : ℚ) / d * 2 ^ k) (hhigh : (n : ℚ) / d * 2 ^ k < 2 ^ (1023 : Int)) :
    ZeroOrNormal (roundNearest neg n d k) := by
  rcases Nat.eq_zero_or_pos n with rfl | hn
  · exact (f64Pack_zero_isDyadic neg 0).zeroOrNormal (by norm_num)
  obtain ⟨u, m, hr, hm, hbinade, -, hhalf, -⟩ := roundNearest_spec neg n d k hn hd
  have hu : u < 2045 := by
    by_contra hge
    have hfoot := (hbinade (by omega)).2.trans_lt hhigh
    have := (zpow_lt_zpow_iff_right₀ (one_lt_two (α := ℚ))).1 hfoot
    omega
  have hsignificand : 2 ^ 52 ≤ m := by
    rcases Nat.eq_zero_or_pos u with rfl | hpos
    · exact two_pow_le_of_near (by positivity) (two_pow_mul_leastUnit.trans_le (hlow hn.ne')) hhalf
    · exact (hbinade hpos).1
  obtain ⟨-, hexp, -⟩ := f64Pack_fields neg u m (by omega)
  rw [hr, ZeroOrNormal, hexp]
  exact ⟨by omega, fun h => by omega⟩

/-- The quotient of a dyadic number by an integer is a zero or normal. -/
theorem IsDyadic.fdiv_zeroOrNormal {x y : F64} {s t : Bool} {m n : Nat} {e : Int} (hx : IsDyadic x s m e)
    (hy : IsDyadic y t n 0) (hm : m < 2 ^ 53) (hn : 0 < n) (hn53 : n < 2 ^ 53) (hlow : -900 ≤ e) (hhigh : e ≤ 900) :
    ZeroOrNormal (fdiv x y) := by
  obtain ⟨hpos, hr, hmag, -⟩ := fdiv_eq x y hx.finite hy.finite (mt hy.val_eq_zero_iff.1 hn.ne')
  have hquotient : |f64Val x / f64Val y| = m * 2 ^ e / n := by
    rw [abs_div, hx.abs_val, hy.abs_val, zpow_zero, mul_one]
  have hnq : (1 : ℚ) ≤ n := by exact_mod_cast hn
  rw [hr]
  refine roundNearest_zeroOrNormal _ _ _ _ hpos (fun hsignificand => ?_) ?_
  · have hne : f64Val x ≠ 0 := by
      rw [← abs_pos, f64Val_abs]
      have : (0 : ℚ) < f64Significand x := by exact_mod_cast Nat.pos_of_ne_zero hsignificand
      positivity
    rw [← hmag, hquotient, ← hx.abs_val, le_div_iff₀ (by positivity)]
    have hn53q : (n : ℚ) ≤ 2 ^ (53 : Int) := by exact_mod_cast hn53.le
    calc (2 : ℚ) ^ (-1022 : Int) * n ≤ 2 ^ (-1022 : Int) * 2 ^ (53 : Int) := by gcongr
      _ = 2 ^ (-969 : Int) := by rw [← zpow_add₀ two_ne_zero]; norm_num
      _ ≤ |f64Val x| := hx.le_abs_val (by omega) hne
  · rw [← hmag, hquotient]
    calc (m : ℚ) * 2 ^ e / n ≤ m * 2 ^ e := div_le_self (by positivity) hnq
      _ < 2 ^ (1023 : Int) := mul_zpow_lt hm (by omega)

theorem i2f_i16OfRaw_isDyadic (raw : Raw) :
    IsDyadic (i2f (i16OfRaw raw)) (decide (i16OfRaw raw < 0)) (i16OfRaw raw).natAbs 0 :=
  i2f_isDyadic (by have := i16OfRaw_bounds raw; omega)

theorem voltageOfRaw_isDyadic (raw : Raw) :
    IsDyadic (voltageOfRaw raw) (decide (i16OfRaw raw < 0)) (i16OfRaw raw).natAbs (-12) := by
  have hi := i16OfRaw_bounds raw
  exact (i2f_i16OfRaw_isDyadic raw).fdiv_pow (i2f_pow_isDyadic 12 (by norm_num)) (by norm_num) (by omega) (by norm_num)
    (by norm_num)

theorem temperatureOfRaw_zeroOrNormal (raw : Raw) : ZeroOrNormal (temperatureOfRaw raw) := by
  have hi := i16OfRaw_bounds raw
  have hdivisor : IsDyadic temperatureDivisor false 200 0 := i2f_natCast_isDyadic (by norm_num)
  exact (i2f_i16OfRaw_isDyadic raw).fdiv_zeroOrNormal hdivisor (by omega) (by norm_num) (by norm_num) (by norm_num)
    (by norm_num)

/-- The product DECDP forms first is exact (43_scaled_fields.md R93). -/
theorem pressureProduct_isDyadic (raw : Raw) :
    IsDyadic (fmul (sflt16OfRaw raw) pressureFactor) (sflt16Sign raw) (sflt16Mantissa raw) (sflt16Exponent raw - 11) := by
  have he := sflt16Exponent_lt raw
  have hm := sflt16Mantissa_lt raw
  have hfactor : IsDyadic pressureFactor false 1 15 := i2f_pow_isDyadic 15 (by norm_num)
  exact (sflt16OfRaw_isDyadic raw).fmul hfactor (Bool.xor_false _) (mul_one _) (by omega) (by omega) (by omega) (by omega)

theorem pressureOfRaw_zeroOrNormal (raw : Raw) : ZeroOrNormal (pressureOfRaw raw) := by
  have he := sflt16Exponent_lt raw
  have hm := sflt16Mantissa_lt raw
  have hdivisor : IsDyadic pressureDivisor false 60 0 := i2f_natCast_isDyadic (by norm_num)
  exact (pressureProduct_isDyadic raw).fdiv_zeroOrNormal hdivisor (by omega) (by norm_num) (by norm_num) (by omega)
    (by omega)

/-- Settles O21: the compact floats and the voltage are exact and far above the subnormals; the temperature and the pressure
are quotients of such numbers by 200 and 60. -/
theorem decodersGiveZeroOrNormal : Obligations.DecodersGiveZeroOrNormal := by
  unfold Obligations.DecodersGiveZeroOrNormal
  intro raw
  exact ⟨(uflt16OfRaw_isDyadic raw).zeroOrNormal (by omega), (sflt16OfRaw_isDyadic raw).zeroOrNormal (by omega),
    (voltageOfRaw_isDyadic raw).zeroOrNormal (by norm_num), temperatureOfRaw_zeroOrNormal raw,
    pressureOfRaw_zeroOrNormal raw⟩

end Sys2Proof.Machine

/-! ## The scaled fields (43_scaled_fields.md)

A voltage is the signed word over 2^12, so it is exact. A temperature and a pressure are each one rounded quotient of an
exact number by 200 or 60 (R89, R90, R93): the nearest value, with the sign of the number. Nearest values keep to the side
of every binary64 value that their number is on, and the ranges of R92 follow from that. -/
namespace Sys2Proof.Machine

/-! ### The sign and the value of a rounded quotient -/

theorem f64Sign_f64Pack (neg : Bool) (magnitude : Nat) : f64Sign (f64Pack neg magnitude) = neg := by
  rcases Nat.lt_or_ge magnitude (2047 * 2 ^ 52) with hfinite | hinfinite
  · have hsign := (f64Pack_fields neg 0 magnitude (by omega)).1
    rwa [zero_mul, zero_add] at hsign
  · rw [f64Pack, min_eq_right hinfinite]
    cases neg <;> rfl

theorem f64Sign_roundNearest (neg : Bool) (n d : Nat) (k : Int) : f64Sign (roundNearest neg n d k) = neg := by
  rw [roundNearest]
  split <;> exact f64Sign_f64Pack neg _

/-- Where a quotient by a positive integer does not overflow, it is the nearest value, and it has the dividend's sign. -/
theorem IsDyadic.fdiv_i2f_rounds {x : F64} {s : Bool} {m n : Nat} {e : Int} (hx : IsDyadic x s m e) (hn : 0 < n)
    (hn53 : n < 2 ^ 53) (hquotient : ZeroOrNormal (fdiv x (i2f n))) :
    IsNearest (fdiv x (i2f n)) (f64Val x / n) ∧ f64Sign (fdiv x (i2f n)) = s := by
  have hy : IsDyadic (i2f n) false n 0 := i2f_natCast_isDyadic hn53
  have hyval : f64Val (i2f n) = n := by rw [hy.val]; simp [dyadic]
  obtain ⟨hpos, hr, -, hq⟩ := fdiv_eq x (i2f n) hx.finite hy.finite (mt hy.val_eq_zero_iff.1 hn.ne')
  have hfinite : f64Finite (fdiv x (i2f n)) = true := bne_iff_ne.2 hquotient.1
  rw [← hyval, hq, ← mul_assoc]
  rw [hr] at hfinite ⊢
  exact ⟨roundNearest_isNearest _ _ _ _ hpos hfinite, by rw [f64Sign_roundNearest, hx.sign, hy.sign, Bool.xor_false]⟩

/-! ### What the three decoders give (R88 to R90) -/

section Fields
variable (raw : Raw)

theorem f64Val_i2f_i16OfRaw : f64Val (i2f (i16OfRaw raw)) = i16OfRaw raw :=
  (i2f_spec _ (by have := i16OfRaw_bounds raw; omega)).2.2

theorem f64Val_voltageOfRaw : f64Val (voltageOfRaw raw) = (i16OfRaw raw : ℚ) / 4096 := by
  rw [(voltageOfRaw_isDyadic raw).val, ← f64Val_i2f_i16OfRaw, (i2f_i16OfRaw_isDyadic raw).val, dyadic, dyadic,
    show (4096 : ℚ) = 2 ^ (12 : Int) by norm_num, mul_div_assoc, mul_div_assoc, ← zpow_sub₀ two_ne_zero, zero_sub]

theorem temperatureOfRaw_rounds :
    IsNearest (temperatureOfRaw raw) ((i16OfRaw raw : ℚ) / 200) ∧
      f64Sign (temperatureOfRaw raw) = decide (i16OfRaw raw < 0) := by
  rw [← f64Val_i2f_i16OfRaw]
  exact (i2f_i16OfRaw_isDyadic raw).fdiv_i2f_rounds (n := 200) (by norm_num) (by norm_num)
    (temperatureOfRaw_zeroOrNormal raw)

theorem pressureOfRaw_rounds :
    IsNearest (pressureOfRaw raw) (dyadic (sflt16Sign raw) (sflt16Mantissa raw) (sflt16Exponent raw - 11) / 60) ∧
      f64Sign (pressureOfRaw raw) = sflt16Sign raw := by
  rw [← (pressureProduct_isDyadic raw).val]
  exact (pressureProduct_isDyadic raw).fdiv_i2f_rounds (n := 60) (by norm_num) (by norm_num)
    (pressureOfRaw_zeroOrNormal raw)

end Fields

theorem exec_decvolt (s : State) : exec .decvolt s = .next (primitive16 (fun raw => .float (voltageOfRaw raw)) s) := rfl

theorem exec_dectempc (s : State) :
    exec .dectempc s = .next (primitive16 (fun raw => .float (temperatureOfRaw raw)) s) := rfl

theorem exec_decdp (s : State) : exec .decdp s = .next (primitive16 (fun raw => .float (pressureOfRaw raw)) s) := rfl

/-- Settles O22, by the two end states of a command of width 2 and the exact voltage of the word at OFF. -/
theorem decvoltReturnsTheExactVoltage : Obligations.DecvoltReturnsTheExactVoltage := by
  unfold Obligations.DecvoltReturnsTheExactVoltage
  intro s
  rw [exec_decvolt]
  refine ⟨fun hfits => ?_, fun hmissing => congrArg _ (primitive16_missing _ hmissing)⟩
  have hdyadic := voltageOfRaw_isDyadic (wordAt s.seq s.off)
  rw [← i16OfRaw_wordAt]
  exact ⟨congrArg _ (primitive16_fits _ hfits), hdyadic.finite, f64Val_voltageOfRaw _, hdyadic.sign⟩

/-- Settles O23, by the two end states of a command of width 2 and the rounded temperature of the word at OFF. -/
theorem dectempcReturnsTheNearestTemperature : Obligations.DectempcReturnsTheNearestTemperature := by
  unfold Obligations.DectempcReturnsTheNearestTemperature
  intro s
  rw [exec_dectempc]
  refine ⟨fun hfits => ?_, fun hmissing => congrArg _ (primitive16_missing _ hmissing)⟩
  rw [← i16OfRaw_wordAt]
  exact ⟨congrArg _ (primitive16_fits _ hfits), temperatureOfRaw_rounds _⟩

/-- Settles O24, by the two end states of a command of width 2 and the rounded pressure of the word at OFF: the product
formed first is exact, so the quotient is the only rounding. -/
theorem decdpReturnsTheNearestPressure : Obligations.DecdpReturnsTheNearestPressure := by
  unfold Obligations.DecdpReturnsTheNearestPressure
  intro s
  rw [exec_decdp]
  refine ⟨fun hfits => ?_, fun hmissing => congrArg _ (primitive16_missing _ hmissing)⟩
  have hrounds := pressureOfRaw_rounds (wordAt s.seq s.off)
  rw [dyadic, sflt16Sign_eq, sflt16Mantissa, sflt16Exponent, wordAt_toNat, ← mul_assoc] at hrounds
  simp only [decide_eq_true_eq] at hrounds
  exact ⟨congrArg _ (primitive16_fits _ hfits), hrounds⟩

/-! ### The ranges (R92) -/

/-- No binary64 value separates a number from its nearest value: one above the number is above both. -/
theorem IsNearest.val_le {x y : F64} {q : ℚ} (hx : IsNearest x q) (hy : f64Finite y = true) (hq : q ≤ f64Val y) :
    f64Val x ≤ f64Val y := by
  have hnear := (hx.2 y hy).1
  rw [abs_of_nonneg (sub_nonneg.2 hq)] at hnear
  linarith [le_abs_self (f64Val x - q)]

/-- The other side: a binary64 value below a number is below its nearest value. -/
theorem IsNearest.le_val {x y : F64} {q : ℚ} (hx : IsNearest x q) (hy : f64Finite y = true) (hq : f64Val y ≤ q) :
    f64Val y ≤ f64Val x := by
  have hnear := (hx.2 y hy).1
  rw [abs_of_nonpos (sub_nonpos.2 hq)] at hnear
  linarith [neg_abs_le (f64Val x - q)]

/-- A finite pattern is the dyadic number of its own fields. -/
theorem isDyadic_of_finite {x : F64} (hfinite : f64Finite x = true) :
    IsDyadic x (f64Sign x) (f64Significand x) (f64Scale x) :=
  ⟨hfinite, rfl, f64Val_eq x⟩

/-- The pattern of the least temperature lies below -32768 / 200, which it rounds. -/
theorem leastTemperature_isDyadic : IsDyadic 0xC0647AE147AE147B#64 true 0x147AE147AE147B (-45) :=
  isDyadic_of_finite rfl

/-- The pattern of the greatest temperature lies above 32767 / 200, which it rounds. -/
theorem greatestTemperature_isDyadic : IsDyadic 0x40647AB851EB851F#64 false 0x147AB851EB851F (-45) :=
  isDyadic_of_finite rfl

/-- The pattern of the greatest pressure lies above 2047 * 2^4 / 60, which it rounds. -/
theorem greatestPressure_isDyadic : IsDyadic 0x40810EEEEEEEEEEF#64 false 0x110EEEEEEEEEEF (-43) :=
  isDyadic_of_finite rfl

/-- The same magnitude with the sign bit set: the least pressure. -/
theorem leastPressure_isDyadic : IsDyadic 0xC0810EEEEEEEEEEF#64 true 0x110EEEEEEEEEEF (-43) :=
  isDyadic_of_finite rfl

section Ranges
variable (raw : Raw)

theorem voltageOfRaw_range : -8 ≤ f64Val (voltageOfRaw raw) ∧ f64Val (voltageOfRaw raw) ≤ 7.999755859375 := by
  obtain ⟨hlow, hhigh⟩ := i16OfRaw_bounds raw
  have hlowq : (-32768 : ℚ) ≤ i16OfRaw raw := by exact_mod_cast hlow
  have hhighq : (i16OfRaw raw : ℚ) ≤ 32767 := by exact_mod_cast hhigh
  rw [f64Val_voltageOfRaw]
  constructor <;> linarith

theorem temperatureOfRaw_range :
    f64Val 0xC0647AE147AE147B#64 ≤ f64Val (temperatureOfRaw raw) ∧
      f64Val (temperatureOfRaw raw) ≤ f64Val 0x40647AB851EB851F#64 := by
  obtain ⟨hlow, hhigh⟩ := i16OfRaw_bounds raw
  have hlowq : (-32768 : ℚ) ≤ i16OfRaw raw := by exact_mod_cast hlow
  have hhighq : (i16OfRaw raw : ℚ) ≤ 32767 := by exact_mod_cast hhigh
  obtain ⟨hnearest, -⟩ := temperatureOfRaw_rounds raw
  constructor
  · refine hnearest.le_val leastTemperature_isDyadic.finite ?_
    calc f64Val 0xC0647AE147AE147B#64 ≤ -32768 / 200 := by rw [leastTemperature_isDyadic.val]; norm_num [dyadic]
      _ ≤ (i16OfRaw raw : ℚ) / 200 := by gcongr
  · refine hnearest.val_le greatestTemperature_isDyadic.finite ?_
    calc (i16OfRaw raw : ℚ) / 200 ≤ 32767 / 200 := by gcongr
      _ ≤ f64Val 0x40647AB851EB851F#64 := by rw [greatestTemperature_isDyadic.val]; norm_num [dyadic]

theorem abs_pressureProduct_le :
    |dyadic (sflt16Sign raw) (sflt16Mantissa raw) (sflt16Exponent raw - 11)| ≤ 2047 * 2 ^ 4 := by
  have he := sflt16Exponent_lt raw
  have hbound := (pressureProduct_isDyadic raw).abs_val_le (Nat.le_of_lt_succ (sflt16Mantissa_lt raw)) (k := 4) (by omega)
  rw [(pressureProduct_isDyadic raw).val] at hbound
  exact_mod_cast hbound

theorem abs_pressureOfRaw_le : |f64Val (pressureOfRaw raw)| ≤ f64Val 0x40810EEEEEEEEEEF#64 := by
  obtain ⟨hnearest, -⟩ := pressureOfRaw_rounds raw
  obtain ⟨hlow, hhigh⟩ := abs_le.1 (abs_pressureProduct_le raw)
  have hgreatest : (2047 * 2 ^ 4 / 60 : ℚ) ≤ f64Val 0x40810EEEEEEEEEEF#64 := by
    rw [greatestPressure_isDyadic.val]
    norm_num [dyadic]
  have hleast : f64Val 0xC0810EEEEEEEEEEF#64 = -f64Val 0x40810EEEEEEEEEEF#64 := by
    rw [leastPressure_isDyadic.val, greatestPressure_isDyadic.val]
    norm_num [dyadic]
  rw [abs_le, ← hleast]
  exact ⟨hnearest.le_val leastPressure_isDyadic.finite (by linarith),
    hnearest.val_le greatestPressure_isDyadic.finite (by linarith)⟩

end Ranges

/-- Settles O25: the extreme fields bound each exact number, and a nearest value does not pass the spec's pattern, which
bounds that number too. -/
theorem scaledFieldsStayInRange : Obligations.ScaledFieldsStayInRange := by
  unfold Obligations.ScaledFieldsStayInRange
  intro raw
  obtain ⟨hvoltlow, hvolthigh⟩ := voltageOfRaw_range raw
  obtain ⟨htemplow, htemphigh⟩ := temperatureOfRaw_range raw
  exact ⟨hvoltlow, hvolthigh, htemplow, htemphigh, abs_pressureOfRaw_le raw⟩

end Sys2Proof.Machine

/-! ## The message decoder (44_message_decoder.md)

The rows of the phase table, the end states and frames of the operations, and DECODE as the function of its inputs
(R109). That the phase machine agrees with it (R111) is shown on one walk from row to row, `PassEnds`, from which the
number of steps, the state a pass ends in and what it does not depend on (R115) are read off. -/
namespace Sys2Proof.Machine

/-! ### A step of the phase machine (R110) -/

theorem step_of_silent {s : State} (h : s.host = []) : step s = phaseStep s := by
  rw [step, machineStep, h]

theorem State.withHost_of_host_eq {s : State} {moves : List HostMove} (h : s.host = moves) : s.withHost moves = s := by
  subst h
  rfl

/-- A silent host, one that waits, or one whose START a BUSY core ignores: the step is the row of the phase. -/
theorem step_of_no_event {s : State} (hbusy : s.phase.busy = true)
    (hhost : s.host = [] ∨ ∃ rest, s.host = .wait :: rest ∨ s.host = .start :: rest) :
    step s = phaseStep (s.withHost s.host.tail) := by
  rcases hhost with hsilent | ⟨rest, hwait | hstart⟩
  · rw [step_of_silent hsilent, hsilent, List.tail_nil, State.withHost_of_host_eq hsilent]
  · rw [step_of_host hwait, hwait]
    rfl
  · rw [step_of_host hstart, hostStep_start_of_busy (s := s.withHost rest) hbusy, hstart]
    rfl

theorem phaseStep_of_betweenPasses {s : State} (h : betweenPasses s) : phaseStep s = .next s := by
  rcases h with hp | hp <;> rw [phaseStep, hp]

theorem phaseStep_env {s : State} (h : s.phase = .env) : phaseStep s = .next (envelopePhase s) := by
  rw [phaseStep, h]

theorem phaseStep_bmp {s : State} (h : s.phase = .bmp) : phaseStep s = .next (bitmapPhase s) := by
  rw [phaseStep, h]

theorem phaseStep_prim {s : State} {i : Instr} (h : s.phase = .prim) (hi : decodeCmd s.cmd = .ok i)
    (hne : i ≠ .decode) : phaseStep s = exec i s := by
  simp only [phaseStep, h, primPhase, hi]

theorem bitmapPhase_eq (s : State) :
    bitmapPhase s =
      if s.seq.len < s.off + 1 then s.faultEntry
      else ((s.advance 1).latchFlags (s.seq.byte s.off)).enter (.field .vbattery) := by
  rcases bitmapPhase_cases s with ⟨hfits, heq⟩ | ⟨hmissing, heq⟩ <;> rw [heq]
  · exact (if_neg hfits.not_gt).symm
  · exact (if_pos hmissing).symm

/-- Settles O6: no event from the host leaves the row of IDLE or DONE, which holds every register. -/
theorem coreWaitsBetweenPasses : Obligations.CoreWaitsBetweenPasses := by
  unfold Obligations.CoreWaitsBetweenPasses
  intro s hbetween
  refine ⟨fun hsilent => ?_, fun rest hwait => ?_⟩
  · rw [step_of_silent hsilent, phaseStep_of_betweenPasses hbetween]
  · rw [step_of_host hwait]
    exact phaseStep_of_betweenPasses (s := s.withHost rest) hbetween

/-- Settles O40, by the row PRIM. -/
theorem primStepRunsTheCommand : Obligations.PrimStepRunsTheCommand := by
  unfold Obligations.PrimStepRunsTheCommand
  intro s i hp hi hne
  have hbusy : s.phase.busy = true := by rw [hp, Phase.busy]
  refine ⟨fun hsilent => ?_, fun rest hhost => ?_⟩
  · rw [step_of_silent hsilent, phaseStep_prim hp hi hne]
  · have htail : s.host.tail = rest := by rcases hhost with hhost | hhost <;> rw [hhost, List.tail_cons]
    rw [step_of_no_event hbusy (.inr ⟨rest, hhost⟩), htail]
    exact phaseStep_prim (s := s.withHost rest) hp hi hne

theorem fieldPhase_selected {i : Slot} {s : State} (h : i.selected s.flags = true) :
    fieldPhase i s = selectField i s := by
  rw [fieldPhase, decodeSel, if_pos h]

theorem fieldPhase_clear {i : Slot} {s : State} (h : i.selected s.flags = false) :
    fieldPhase i s = s.nextField i := by
  simp [fieldPhase, decodeSel, h]

theorem decodeSel_eq_ok {i : Slot} {flags : Byte} {instr : Instr} (h : decodeSel i flags = .ok instr) :
    i.selected flags = true ∧ instr = i.instr := by
  unfold decodeSel at h
  split at h <;> cases h
  exact ⟨‹_›, rfl⟩

/-- Settles O41, by the row of the slot's phase. -/
theorem fieldStepRunsTheSelectedOperation : Obligations.FieldStepRunsTheSelectedOperation := by
  unfold Obligations.FieldStepRunsTheSelectedOperation
  intro s i hp hhost
  have hbusy : s.phase.busy = true := by rw [hp, Phase.busy]
  rw [step_of_no_event hbusy hhost, phaseStep_field i (s.withHost s.host.tail) hp]
  refine ⟨fun instr hsel => ?_, fun hclear => ?_⟩
  · obtain ⟨hset, rfl⟩ := decodeSel_eq_ok hsel
    rw [fieldPhase_selected (s := s.withHost s.host.tail) hset, ← exec_slot_instr]
    rfl
  · rw [fieldPhase_clear (s := s.withHost s.host.tail) hclear]
    cases i <;> rfl

/-- Settles O42, by the rows ENV and BMP. -/
theorem envelopeAndBitmapStepsFollowTheTable : Obligations.EnvelopeAndBitmapStepsFollowTheTable := by
  unfold Obligations.EnvelopeAndBitmapStepsFollowTheTable
  intro s hhost
  refine ⟨fun hp => ?_, fun hp => ?_⟩
  · have hbusy : s.phase.busy = true := by rw [hp, Phase.busy]
    rw [step_of_no_event hbusy hhost, phaseStep_env (s := s.withHost s.host.tail) hp, envelopePhase_eq]
    rfl
  · have hbusy : s.phase.busy = true := by rw [hp, Phase.busy]
    rw [step_of_no_event hbusy hhost, phaseStep_bmp (s := s.withHost s.host.tail) hp, bitmapPhase_eq]
    rfl

/-! ### The primitive commands (R112) -/

/-- The two end states of a primitive command; what it makes of B depends on nothing but B and OFF. -/
theorem exec_primitive_eq {i : Instr} {n : Nat} (hw : primitiveWidth i = some n) :
    ∃ value : Memory → Nat → Value, ∀ s, exec i s =
      .next (if s.seq.len < s.off + n then afterOutOfRange s else afterValue s n (value s.seq s.off)) := by
  have hn : n = 1 ∨ n = 2 := by cases i <;> simp [primitiveWidth] at hw <;> omega
  rcases hn with rfl | rfl
  · obtain ⟨value, hexec⟩ := exec_of_primitiveWidth_one hw
    refine ⟨fun m a => value (m.byte a), fun s => ?_⟩
    rw [hexec]
    split
    · rw [primitive8_missing value ‹_›]
    · rw [primitive8_fits value (not_lt.1 ‹_›)]
  · obtain ⟨value, hexec⟩ := exec_of_primitiveWidth_two hw
    refine ⟨fun m a => value (wordAt m a), fun s => ?_⟩
    rw [hexec]
    split
    · rw [primitive16_missing value ‹_›]
    · rw [primitive16_fits value (not_lt.1 ‹_›)]

/-- Settles O27: of the two end states of `exec_primitive_eq`, the one of a read that does not fit. -/
theorem primitiveOutOfRangeTakesFaultEntry : Obligations.PrimitiveOutOfRangeTakesFaultEntry := by
  unfold Obligations.PrimitiveOutOfRangeTakesFaultEntry
  intro i n s hw hmissing
  obtain ⟨value, heq⟩ := exec_primitive_eq hw
  rw [heq, if_pos hmissing]

/-- Settles O48: the frame holds of both end states of `exec_primitive_eq`. -/
theorem primitiveCommandFrame : Obligations.PrimitiveCommandFrame := by
  unfold Obligations.PrimitiveCommandFrame
  intro i n s t hw hexec
  obtain ⟨value, heq⟩ := exec_primitive_eq hw
  rw [heq, Host.Outcome.next.injEq] at hexec
  split at hexec <;> subst hexec
  case isTrue hmissing => exact ⟨rfl, fun _ => rfl, rfl, rfl, fun hfits => absurd hfits hmissing.not_ge⟩
  case isFalse => exact ⟨rfl, fun _ => rfl, rfl, rfl, fun _ => ⟨rfl, rfl, rfl, rfl, rfl⟩⟩

/-! ### The field selects (R100 to R104) -/

theorem exec_slot_fits {i : Slot} {s : State} (h : s.off + fieldWidth i ≤ s.seq.len) :
    exec i.instr s = .next (((s.advance (fieldWidth i)).put i (fieldValue s.seq s.off i)).nextField i) := by
  rw [exec_slot_instr, selectField_fits h]

theorem exec_slot_missing {i : Slot} {s : State} (h : s.seq.len < s.off + fieldWidth i) :
    exec i.instr s = .next (afterOutOfRange s) := by
  rw [exec_slot_instr, selectField_missing h]
  rfl

/-- Settles O28: the two end states of a field select at slots 0 and 1; the voltage is DECVOLT's (O22). -/
theorem voltageSelectsFillTheirSlots : Obligations.VoltageSelectsFillTheirSlots := by
  unfold Obligations.VoltageSelectsFillTheirSlots
  intro s
  refine ⟨fun hfits => ?_, fun hmissing => ?_⟩
  · obtain ⟨-, -, hvalue, -⟩ := (decvoltReturnsTheExactVoltage s).1 hfits
    exact ⟨hvalue, exec_slot_fits (i := .vbattery) hfits, exec_slot_fits (i := .vsystem) hfits⟩
  · exact ⟨exec_slot_missing (i := .vbattery) hmissing, exec_slot_missing (i := .vsystem) hmissing⟩

/-- Settles O29: the two end states of a field select at slot 2. -/
theorem bootSelectCopiesTheByte : Obligations.BootSelectCopiesTheByte := by
  unfold Obligations.BootSelectCopiesTheByte
  intro s
  exact ⟨exec_slot_fits (i := .boot), exec_slot_missing (i := .boot)⟩

/-- Settles O30: the two end states of a field select at slot 3; the temperature is DECTEMPC's (O23). -/
theorem temperatureSelectFillsItsSlot : Obligations.TemperatureSelectFillsItsSlot := by
  unfold Obligations.TemperatureSelectFillsItsSlot
  intro s
  refine ⟨fun hfits => ?_, exec_slot_missing (i := .temperatureC)⟩
  obtain ⟨-, hnearest, -⟩ := (dectempcReturnsTheNearestTemperature s).1 hfits
  exact ⟨hnearest, exec_slot_fits (i := .temperatureC) hfits⟩

/-- Settles O31: the two end states of a field select at slot 4; the pressure is DECDP's (O24). -/
theorem pressureSelectFillsItsSlotAndEndsThePass : Obligations.PressureSelectFillsItsSlotAndEndsThePass := by
  unfold Obligations.PressureSelectFillsItsSlotAndEndsThePass
  intro s
  refine ⟨fun hfits => ?_, exec_slot_missing (i := .differentialPressure)⟩
  obtain ⟨-, hnearest, -⟩ := (decdpReturnsTheNearestPressure s).1 hfits
  exact ⟨hnearest, exec_slot_fits (i := .differentialPressure) hfits⟩

/-- Where its field fits, a field select moves OFF past it and adds its presence bit. -/
theorem selectField_frame {i : Slot} {s : State} (h : s.off + fieldWidth i ≤ s.seq.len) :
    (selectField i s).flags = s.flags ∧ (selectField i s).val = s.val ∧ (selectField i s).errcode = s.errcode ∧
      (selectField i s).off = s.off + fieldWidth i ∧ (selectField i s).pres = withPresent s.pres i := by
  rw [selectField_fits h]
  cases i <;> exact ⟨rfl, rfl, rfl, rfl, rfl⟩

theorem selectField_get_other {i j : Slot} {s : State} (h : s.off + fieldWidth i ≤ s.seq.len) (hj : j ≠ i) :
    (selectField i s).record.get j = s.record.get j := by
  rw [selectField_fits h, State.nextField_record, State.put_get_other _ _ hj, State.advance_record]

theorem getLsbD_withPresent_other (pres : BitVec 5) {i j : Slot} (h : j ≠ i) :
    (withPresent pres i).getLsbD j.index = pres.getLsbD j.index := by
  simp [getLsbD_withPresent, slotIndex_injective.ne h.symm]

/-- Settles O49, by `selectField_frame`; the record is unchanged in every other slot (`selectField_get_other`). -/
theorem fieldSelectFrame : Obligations.FieldSelectFrame := by
  unfold Obligations.FieldSelectFrame
  intro i s t hexec
  obtain ⟨hseq, -⟩ := (State.hostSide_eq_iff s t).1 (exec_hostSide hexec)
  obtain rfl : selectField i s = t := by simpa [exec_slot_instr] using hexec
  rw [hseq]
  rcases Nat.lt_or_ge s.seq.len (s.off + fieldWidth i) with hmissing | hfits
  · rw [selectField_missing hmissing]
    exact ⟨rfl, fun _ => rfl, rfl, fun hfits => absurd hfits hmissing.not_ge⟩
  · obtain ⟨hflags, hval, herrcode, hoff, hpres⟩ := selectField_frame hfits
    have hbit (j : Slot) (hj : j ≠ i) : (selectField i s).pres.getLsbD j.index = s.pres.getLsbD j.index := by
      rw [hpres, getLsbD_withPresent_other _ hj]
    have hget (j : Slot) (hj : i ≠ j) := selectField_get_other hfits hj.symm
    exact ⟨hflags, fun _ => rfl, rfl, fun _ => ⟨hval, herrcode, hoff, hbit, hget .vbattery, hget .vsystem, hget .boot,
      hget .temperatureC, hget .differentialPressure⟩⟩

/-! ### DECODE as a function of its inputs (R94, R109, R114) -/

theorem takeField_get_same (m : Memory) (flags : Byte) (r : Record) (i : Slot) :
    (takeField m flags r i).get i =
      if i.selected flags then some (fieldValue m (fieldStart flags i) i) else r.get i := by
  rw [takeField]
  split
  · cases i <;> rfl
  · rfl

theorem takeField_get_other (m : Memory) (flags : Byte) (r : Record) {i j : Slot} (h : j ≠ i) :
    (takeField m flags r i).get j = r.get j := by
  rw [takeField]
  split
  · cases i <;> cases j <;> simp at h <;> rfl
  · rfl

/-- Of the fields taken in turn, each slot holds its own; a slot whose bit is clear keeps what it held. -/
theorem foldl_takeField_get (m : Memory) (flags : Byte) (slots : List Slot) (r : Record) (j : Slot) :
    (slots.foldl (takeField m flags) r).get j =
      if j ∈ slots ∧ j.selected flags = true then some (fieldValue m (fieldStart flags j) j) else r.get j := by
  induction slots generalizing r with
  | nil => simp
  | cons i rest ih =>
    rw [List.foldl_cons, ih]
    rcases eq_or_ne j i with rfl | hne
    · rw [takeField_get_same]
      cases j.selected flags <;> simp
    · rw [takeField_get_other m flags r hne]
      simp [hne]

theorem mem_slot_all (i : Slot) : i ∈ Slot.all := by cases i <;> decide

theorem Record.ext_get {r r' : Record} (h : ∀ i, r.get i = r'.get i) : r = r' := by
  cases r
  cases r'
  exact Record.mk.injEq .. ▸ ⟨h .vbattery, h .vsystem, h .boot, h .temperatureC, h .differentialPressure⟩

theorem messageRecord_get (m : Memory) (flags : Byte) (i : Slot) :
    (messageRecord m flags).get i =
      if i.selected flags then some (fieldValue m (fieldStart flags i) i) else Record.empty.get i := by
  cases i <;> rfl

theorem foldl_takeField_empty (m : Memory) (flags : Byte) :
    Slot.all.foldl (takeField m flags) Record.empty = messageRecord m flags := by
  refine Record.ext_get fun i => ?_
  simp [foldl_takeField_get, messageRecord_get, mem_slot_all]

/-- From slot i on, PRES with the bits of FLAGS below i fills up to FLAGS[4:0]. -/
theorem SlotsFrom.foldl_takePresence {i : Slot} {slots : List Slot} (hslots : SlotsFrom i slots) (flags : Byte) :
    slots.foldl (takePresence flags) (lowFlags flags i.index) = lowFlags flags 5 := by
  induction hslots with
  | last => exact (lowFlags_succ flags .differentialPressure).symm
  | @cons i j rest hindex _ ih => rw [List.foldl_cons, takePresence, ← lowFlags_succ, ← hindex, ih]

theorem foldl_takePresence_zero (flags : Byte) : Slot.all.foldl (takePresence flags) 0#5 = flags.setWidth 5 := by
  have hzero : lowFlags flags 0 = 0#5 := by rw [lowFlags, pow_zero, Nat.mod_one]
  rw [← lowFlags_five, ← slotsFrom_all.foldl_takePresence, Slot.index, hzero]

/-- The whole pass, from a record that holds nothing. -/
theorem messagePass_eq_decodeEnd {s : State} (hrecord : s.record = Record.empty) (hpres : s.pres = 0#5) :
    messagePass s = decodeEnd s := by
  rw [messagePass_eq, decodeEnd]
  split
  · split
    · rfl
    · cases firstMissing s.seq (s.seq.byte 1) with
      | some i => rfl
      | none =>
        simp only [State.fieldsEnd, State.takeFields, State.latchFlags, State.atOffset, State.finishOk, hrecord, hpres,
          foldl_takeField_empty, foldl_takePresence_zero]
  · rfl

/-- Settles O32, by the closed form of the pass; the fields taken in turn make the record of the message
(`foldl_takeField_empty`), and their bits make PRES (`foldl_takePresence_zero`). -/
theorem decodeIsTheFunctionOfItsInputs : Obligations.DecodeIsTheFunctionOfItsInputs := by
  unfold Obligations.DecodeIsTheFunctionOfItsInputs
  intro s hrecord hpres _
  rw [exec_decode, messagePass_eq_decodeEnd hrecord hpres]

theorem messageLength_le (flags : Byte) : messageLength flags ≤ 11 := by
  rw [messageLength_eq]
  omega

theorem fieldStart_le (flags : Byte) (i : Slot) : fieldStart flags i ≤ 11 :=
  (Nat.le_of_add_right_le (fieldEnd_le_messageLength flags i)).trans (messageLength_le flags)

/-- The three ends of a pass: not applicable, fault entry at an offset within the longest message, or every field
taken. -/
theorem messagePass_cases (s : State) :
    messagePass s = s.finishNotApplicable ∨
      (∃ flags o, o ≤ 11 ∧ messagePass s = ((s.latchFlags flags).atOffset o).faultEntry) ∨
      messagePass s =
        (((s.latchFlags (s.seq.byte 1)).takeFields Slot.all).atOffset (messageLength (s.seq.byte 1))).finishOk := by
  rw [messagePass_eq]
  split
  · split
    · exact .inr (.inl ⟨s.flags, 1, by decide, rfl⟩)
    · cases firstMissing s.seq (s.seq.byte 1) with
      | some i => exact .inr (.inl ⟨_, _, fieldStart_le _ i, rfl⟩)
      | none => exact .inr (.inr rfl)
  · exact .inl rfl

theorem messagePass_phase (s : State) : (messagePass s).phase = .done := by
  rcases messagePass_cases s with heq | ⟨_, _, -, heq⟩ | heq <;> rw [heq] <;> rfl

theorem takeFields_get_of_clear (s : State) (slots : List Slot) {i : Slot} (h : i.selected s.flags = false) :
    (s.takeFields slots).record.get i = s.record.get i := by
  rw [State.takeFields, foldl_takeField_get, if_neg (by simp [h])]

/-- Settles O50: only the end with every field taken has RESULT = OK, and there a slot whose bit is clear is not
taken. -/
theorem decodeFrame : Obligations.DecodeFrame := by
  unfold Obligations.DecodeFrame
  intro s
  obtain ⟨hseq, -⟩ := (State.hostSide_eq_iff s _).1 (messagePass_hostSide s)
  refine ⟨_, exec_decode s, messagePass_phase s, fun a => by rw [hseq], by rw [hseq], ?_⟩
  rcases messagePass_cases s with heq | ⟨flags, o, hoff, heq⟩ | heq <;> rw [heq]
  · exact ⟨.inl rfl, .inl rfl, nofun⟩
  · exact ⟨.inr rfl, .inr hoff, nofun⟩
  · have hkept (i : Slot) := takeFields_get_of_clear (s.latchFlags (s.seq.byte 1)) Slot.all (i := i)
    exact ⟨.inl rfl, .inr (messageLength_le _), fun _ => ⟨rfl, rfl, rfl, hkept .vbattery, hkept .vsystem, hkept .boot,
      hkept .temperatureC, hkept .differentialPressure⟩⟩

/-! ### The phase machine runs the pass (R111) -/

/-- From s, the rows of k phases in turn, BUSY at each, end a pass in t. -/
inductive PassEnds : Nat → State → State → Prop where
  | done {t : State} (hdone : t.phase = .done) : PassEnds 0 t t
  | row {k : Nat} {s u t : State} (hbusy : s.phase.busy = true) (hrow : phaseStep s = .next u)
    (hrest : PassEnds k u t) : PassEnds (k + 1) s t

theorem hostCore_run_succ {M : Host.Core} {s u : M.State} (h : M.step s = .next u) (k : Nat) :
    M.run (k + 1) s = M.run k u := by
  simp only [Host.Core.run, h]

theorem core_run_succ {s u : State} (h : step s = .next u) (k : Nat) : core.run (k + 1) s = core.run k u :=
  hostCore_run_succ (M := core) h k

/-- At DONE, and with a silent host, the core stays as it is. -/
theorem core_run_of_done {s : State} (hdone : s.phase = .done) (hhost : s.host = []) (n : Nat) :
    core.run n s = .next s := by
  induction n with
  | zero => rfl
  | succ n ih =>
    rw [core_run_succ ((coreWaitsBetweenPasses s (.inr hdone)).1 hhost), ih]

theorem phaseStep_host {s t : State} (h : phaseStep s = .next t) (hhost : s.host = []) : t.host = [] := by
  obtain ⟨-, -, -, -, -, hkept⟩ := (State.hostSide_eq_iff s t).1 (phaseStep_hostSide h)
  rw [hkept, hhost]

/-- With a silent host, as many steps as the pass has rows, or more, leave its end. -/
theorem PassEnds.run_eq {k : Nat} {s t : State} (h : PassEnds k s t) (hhost : s.host = []) {n : Nat} (hn : k ≤ n) :
    core.run n s = .next t := by
  induction h generalizing n with
  | done hdone => exact core_run_of_done hdone hhost n
  | row _ hrow _ ih =>
    obtain ⟨n, rfl⟩ := Nat.exists_eq_add_one.2 (Nat.zero_lt_of_lt hn)
    rw [core_run_succ ((step_of_silent hhost).trans hrow)]
    exact ih (phaseStep_host hrow hhost) (Nat.le_of_succ_le_succ hn)

/-- With a silent host, fewer steps than the pass has rows leave the core BUSY. -/
theorem PassEnds.busy_before {k : Nat} {s t : State} (h : PassEnds k s t) (hhost : s.host = []) {n : Nat} (hn : n < k) :
    ∃ u, core.run n s = .next u ∧ u.phase.busy = true := by
  induction h generalizing n with
  | done => exact absurd hn (Nat.not_lt_zero n)
  | @row _ s _ _ hbusy hrow _ ih =>
    cases n with
    | zero => exact ⟨s, rfl, hbusy⟩
    | succ n =>
      rw [core_run_succ ((step_of_silent hhost).trans hrow)]
      exact ih (phaseStep_host hrow hhost) (Nat.lt_of_succ_lt_succ hn)

theorem PassEnds.field {k : Nat} {s t : State} {i : Slot} (hp : s.phase = .field i)
    (h : PassEnds k (fieldPhase i s) t) : PassEnds (k + 1) s t :=
  .row (by rw [hp, Phase.busy]) (phaseStep_field i s hp) h

/-- How many of the phases F0 to F4 a pass has: those up to the missing field, or all. -/
def fieldRows : Option Slot → Nat
  | some i => i.index + 1
  | none => 5

/-- Step 5 from slot i on, row by row. -/
theorem SlotsFrom.passEnds {i : Slot} {slots : List Slot} (hslots : SlotsFrom i slots) {s : State}
    (hp : s.phase = .field i) (hoff : s.off = fieldStart s.flags i) :
    ∃ k, i.index + k = fieldRows (slots.find? (fieldMissing s.seq s.flags)) ∧
      PassEnds k s (s.fieldsEnd slots (slots.find? (fieldMissing s.seq s.flags))) := by
  induction hslots generalizing s with
  | last =>
    have heq := SlotsFrom.last.fieldPhases_eq hoff
    rw [fieldPhases, fieldPhases, ite_self] at heq
    rw [← heq, List.find?_singleton]
    refine ⟨1, by split <;> rfl, .field hp (.done ?_)⟩
    rw [heq]
    cases List.find? _ _ <;> rfl
  | @cons i j rest hindex _ ih =>
    cases hm : fieldMissing s.seq s.flags i with
    | false =>
      have hrow := fieldPhase_fits hoff hm
      rw [nextField_of_index hindex] at hrow
      obtain ⟨k, hk, hrest⟩ := ih (s := ((s.takeFields [i]).atOffset (fieldStart s.flags i + widthIn s.flags i)).enter
        (.field j)) rfl (fieldStart_of_index hindex s.flags).symm
      rw [State.fieldsEnd_moved, State.fieldsEnd_takeFields] at hrest
      rw [List.find?_cons_of_neg (by simp [hm])]
      have hnext : i.index + (k + 1) = j.index + k := by omega
      exact ⟨k + 1, hnext.trans hk, .field hp (hrow ▸ hrest)⟩
    | true =>
      rw [List.find?_cons_of_pos hm, State.fieldsEnd, ← hoff]
      refine ⟨1, rfl, .field hp ?_⟩
      rw [fieldPhase_missing hoff hm]
      exact .done rfl

theorem decodeSteps_eq (s : State) :
    decodeSteps s =
      if envelopeMatches s then
        if s.seq.len < 2 then 3 else 3 + fieldRows (firstMissing s.seq (s.seq.byte 1))
      else 2 := by
  rw [decodeSteps]
  split
  · split
    · rfl
    · cases firstMissing s.seq (s.seq.byte 1) with
      | some i => simp only [fieldRows]; omega
      | none => rfl
  · rfl

theorem fieldRows_le (missing : Option Slot) : fieldRows missing ≤ 5 := by
  cases missing with
  | some i => exact slotIndex_lt i
  | none => exact le_rfl

theorem decodeSteps_le (s : State) : decodeSteps s ≤ 8 := by
  have hrows := fieldRows_le (firstMissing s.seq (s.seq.byte 1))
  rw [decodeSteps_eq]
  split
  · split <;> omega
  · omega

/-- From ENV the rows of the phase table run the whole of DECODE; with START they are `decodeSteps`. -/
theorem messagePass_passEnds {s : State} (hp : s.phase = .env) :
    ∃ k, decodeSteps s = k + 1 ∧ PassEnds k s (messagePass s) := by
  have hbusy : s.phase.busy = true := by rw [hp, Phase.busy]
  have henv := phaseStep_env hp
  rw [envelopePhase_eq] at henv
  rw [decodeSteps_eq, messagePass_eq]
  cases hmatch : envelopeMatches s with
  | false =>
    rw [hmatch] at henv
    exact ⟨1, rfl, .row hbusy henv (.done rfl)⟩
  | true =>
    rw [hmatch] at henv
    have hbmp : phaseStep (s.initCursor.enter .bmp) = _ := phaseStep_bmp rfl
    rw [bitmapPhase_of_envelope] at hbmp
    rw [if_pos rfl, if_pos rfl]
    split at hbmp
    case isTrue hlen =>
      rw [if_pos hlen, if_pos hlen]
      exact ⟨2, rfl, .row hbusy henv (.row rfl hbmp (.done rfl))⟩
    case isFalse hlen =>
      obtain ⟨k, hk, hrest⟩ := slotsFrom_all.passEnds
        (s := ((s.latchFlags (s.seq.byte 1)).atOffset 2).enter (.field .vbattery)) rfl rfl
      rw [State.fieldsEnd_moved] at hrest
      rw [if_neg hlen, if_neg hlen]
      refine ⟨k + 2, ?_, .row hbusy henv (.row rfl hbmp hrest)⟩
      have hrows : k = fieldRows (firstMissing s.seq (s.seq.byte 1)) := (Nat.zero_add k).symm.trans hk
      omega

/-- Settles O34: the pass has at most seven rows (`messagePass_passEnds`), and at DONE the core stays. -/
theorem sevenStepsFromEnvRunDecode : Obligations.SevenStepsFromEnvRunDecode := by
  unfold Obligations.SevenStepsFromEnvRunDecode
  intro s hp hhost
  obtain ⟨k, hk, hpass⟩ := messagePass_passEnds hp
  have hsteps := decodeSteps_le s
  exact (hpass.run_eq hhost (by omega)).trans (exec_decode s).symm

/-- The first step of a host that gives START and then nothing. -/
theorem step_of_only_start {s : State} (hbetween : betweenPasses s) (hhost : s.host = [.start]) :
    step s = .next (acceptStart (s.withHost [])) := by
  rw [step_of_host hhost, hostStep_start_of_not_busy (s := s.withHost []) ((betweenPasses_iff s).1 hbetween)]

theorem acceptStart_of_zero {s : State} (hcmd : s.cmd = 0#4) : acceptStart s = s.beginPass 0 .env := by
  have hdecode : decodeCmd 0#4 = .ok .decode := rfl
  rw [acceptStart, hcmd, hdecode]

theorem acceptStart_of_primitive {s : State} {i : Instr} (hi : decodeCmd s.cmd = .ok i) (hne : i ≠ .decode) :
    acceptStart s = s.beginPass s.offInit .prim := by
  simp only [acceptStart, hi]

theorem afterStart_of_zero {s : State} (hcmd : s.cmd = 0#4) : afterStart s = s.beginPass 0 .env := by
  rw [afterStart, if_pos hcmd, if_pos hcmd]
  rfl

/-- Settles O35: START, then the rows of the pass (`messagePass_passEnds`), BUSY at each; the pass from the cleared
registers is the function of the inputs. -/
theorem phaseMachineAgreesWithTheFunction : Obligations.PhaseMachineAgreesWithTheFunction := by
  unfold Obligations.PhaseMachineAgreesWithTheFunction
  intro s hbetween hcmd hhost
  have hstart := step_of_only_start hbetween hhost
  rw [acceptStart_of_zero (s := s.withHost []) hcmd] at hstart
  have hafter : afterStart { s with host := [] } = (s.withHost []).beginPass 0 .env :=
    afterStart_of_zero (s := s.withHost []) hcmd
  obtain ⟨k, hk, hpass⟩ := messagePass_passEnds (s := (s.withHost []).beginPass 0 .env) rfl
  have hsteps : decodeSteps s = k + 1 := hk
  rw [hsteps, hafter, ← messagePass_eq_decodeEnd rfl rfl]
  refine ⟨(core_run_succ hstart k).trans (hpass.run_eq rfl le_rfl), fun j hpos hlt => ?_⟩
  obtain ⟨j, rfl⟩ := Nat.exists_eq_add_one.2 hpos
  rw [core_run_succ hstart]
  exact hpass.busy_before rfl (Nat.lt_of_succ_lt_succ hlt)

/-! ### What a pass depends on (R115) -/

/-- The state with other inputs beside B and CMD. -/
def State.withInputs (s : State) (portValid : Bool) (port offInit : Nat) : State :=
  { s with portValid := portValid, port := port, offInit := offInit }

/-- DECODE does not read OFF_INIT. -/
theorem messagePass_withInputs (s : State) (offInit : Nat) :
    messagePass (s.withInputs s.portValid s.port offInit) =
      (messagePass s).withInputs s.portValid s.port offInit := by
  have hmatch : envelopeMatches (s.withInputs s.portValid s.port offInit) = envelopeMatches s := rfl
  have hseq : (s.withInputs s.portValid s.port offInit).seq = s.seq := rfl
  rw [messagePass_eq, messagePass_eq, hmatch, hseq]
  split
  · split
    · rfl
    · cases firstMissing s.seq (s.seq.byte 1) <;> rfl
  · rfl

theorem exists_primitiveWidth {code : BitVec 4} {i : Instr} (hi : decodeCmd code = .ok i) (hne : i ≠ .decode) :
    ∃ n, primitiveWidth i = some n :=
  (primitiveWidth_of_decodeCmd hi hne).elim (fun hone => ⟨1, hone.1⟩) fun htwo => ⟨2, htwo⟩

/-- A primitive command reads none of these inputs: OFF_INIT is read at START alone. -/
theorem exec_primitive_withInputs {i : Instr} {n : Nat} {s u : State} (hw : primitiveWidth i = some n)
    (hexec : exec i s = .next u) (portValid : Bool) (port offInit : Nat) :
    exec i (s.withInputs portValid port offInit) = .next (u.withInputs portValid port offInit) := by
  obtain ⟨value, heq⟩ := exec_primitive_eq hw
  have hseq : (s.withInputs portValid port offInit).seq = s.seq := rfl
  have hoff : (s.withInputs portValid port offInit).off = s.off := rfl
  rw [heq, Host.Outcome.next.injEq] at hexec
  rw [heq, hseq, hoff, ← hexec]
  split <;> rfl

/-- Eight steps from START run DECODE. -/
theorem run_eight_decode {s : State} (hbetween : betweenPasses s) (hhost : s.host = [.start]) (hcmd : s.cmd = 0#4) :
    core.run 8 s = .next (messagePass ((s.withHost []).beginPass 0 .env)) := by
  have hstart := step_of_only_start hbetween hhost
  rw [acceptStart_of_zero (s := s.withHost []) hcmd] at hstart
  obtain ⟨k, hk, hpass⟩ := messagePass_passEnds (s := (s.withHost []).beginPass 0 .env) rfl
  have hsteps := decodeSteps_le ((s.withHost []).beginPass 0 .env)
  exact (core_run_succ hstart 7).trans (hpass.run_eq rfl (by omega))

theorem exec_command_phase {s t : State} {i : Instr} (hi : decodeCmd s.cmd = .ok i) (hne : i ≠ .decode)
    (h : exec i s = .next t) : t.phase = .done := by
  rcases exec_command_cases hi hne h with ⟨n, v, rfl⟩ | rfl <;> rfl

/-- Eight steps from START run a primitive command: START, the row PRIM, and then DONE. -/
theorem run_eight_command {s u : State} {i : Instr} (hbetween : betweenPasses s) (hhost : s.host = [.start])
    (hi : decodeCmd s.cmd = .ok i) (hne : i ≠ .decode)
    (hexec : exec i ((s.withHost []).beginPass s.offInit .prim) = .next u) : core.run 8 s = .next u := by
  have hstart := step_of_only_start hbetween hhost
  rw [acceptStart_of_primitive (s := s.withHost []) hi hne] at hstart
  have hrow := (phaseStep_prim (s := (s.withHost []).beginPass s.offInit .prim) rfl hi hne).trans hexec
  have hpass := PassEnds.row rfl hrow (.done (exec_command_phase (s := (s.withHost []).beginPass _ _) hi hne hexec))
  exact (core_run_succ hstart 7).trans (hpass.run_eq rfl (by decide))

/-- The ends of two passes of one command with equal B, and equal inputs that the command reads, differ at most in the
inputs. -/
theorem run_eight_withInputs {s t : State} (hs : betweenPasses s) (ht : betweenPasses t) (hhosts : s.host = [.start])
    (hhostt : t.host = [.start]) (hlt : s.cmd.toNat < 10) (hseq : s.seq = t.seq) (hcmd : s.cmd = t.cmd)
    (hport : s.cmd = 0#4 → s.portValid = t.portValid ∧ s.port = t.port) (hoff : s.cmd ≠ 0#4 → s.offInit = t.offInit) :
    ∃ u, u.phase = .done ∧ core.run 8 s = .next u ∧
      core.run 8 t = .next (u.withInputs t.portValid t.port t.offInit) := by
  have hstarted (o : Nat) (p : Phase) : (t.withHost []).beginPass o p =
      ((s.withHost []).beginPass o p).withInputs t.portValid t.port t.offInit := by
    simp only [State.withInputs, State.beginPass, State.withHost, hseq, hcmd]
  obtain ⟨i, hi⟩ := (decodeCmd_isOk_iff s.cmd).2 hlt
  by_cases hne : i = .decode
  · subst hne
    have hzero := eq_zero_of_decodeCmd hi
    obtain ⟨hvalid, hport⟩ := hport hzero
    refine ⟨_, messagePass_phase _, run_eight_decode hs hhosts hzero, ?_⟩
    rw [run_eight_decode ht hhostt (hcmd ▸ hzero), hstarted, ← hvalid, ← hport]
    exact congrArg _ (messagePass_withInputs ((s.withHost []).beginPass 0 .env) t.offInit)
  · have hnezero : s.cmd ≠ 0#4 := fun hzero => absurd (bounds_of_decodeCmd hi hne).1 (by rw [hzero]; decide)
    obtain ⟨u, hexec⟩ := exec_next i ((s.withHost []).beginPass s.offInit .prim)
    have hi' : decodeCmd ((s.withHost []).beginPass s.offInit .prim).cmd = .ok i := hi
    refine ⟨u, exec_command_phase hi' hne hexec, run_eight_command hs hhosts hi hne hexec, ?_⟩
    refine run_eight_command ht hhostt (hcmd ▸ hi) hne ?_
    obtain ⟨n, hw⟩ := exists_primitiveWidth hi hne
    rw [hstarted, ← hoff hnezero]
    exact exec_primitive_withInputs hw hexec _ _ _

/-- Settles O37: the two ends differ at most in the inputs (`run_eight_withInputs`), so every register and the outcome
agree. -/
theorem passesDependOnTheirInputsAlone : Obligations.PassesDependOnTheirInputsAlone := by
  unfold Obligations.PassesDependOnTheirInputsAlone
  intro s t hs ht hhosts hhostt hlt hseq hcmd hport hoff
  obtain ⟨u, hdone, hruns, hrunt⟩ := run_eight_withInputs hs ht hhosts hhostt hlt hseq hcmd hport hoff
  exact ⟨u, _, hruns, hrunt, hdone, hdone, rfl, rfl, rfl, rfl, rfl, rfl, rfl, rfl⟩

end Sys2Proof.Machine

/-! ## The exception OutOfRange (60_exceptions.md)

Which rows of the phase table raise it, and that taking it is fault entry and nothing more. -/
namespace Sys2Proof.Machine

/-! ### ERROR comes only from fault entry (R122, R123) -/

theorem State.put_result (s : State) (i : Slot) (x : SlotValue i) : (s.put i x).result = s.result := by
  cases i <;> rfl

/-- Going on to the next slot raises nothing: RESULT is held, or OK after the last slot. -/
theorem State.nextField_result_ne_error {s : State} (i : Slot) (h : s.result ≠ .error) :
    (s.nextField i).result ≠ .error := by
  cases i
  case differentialPressure => simp [State.nextField]
  all_goals exact h

theorem fieldPhase_of_error {s : State} {i : Slot} (h : s.result ≠ .error) (herr : (fieldPhase i s).result = .error) :
    fieldPhase i s = s.faultEntry := by
  rcases fieldPhase_cases i s with ⟨-, heq⟩ | ⟨-, heq⟩ <;> rw [heq] at herr ⊢
  · rcases selectField_cases i s with ⟨-, x, heq⟩ | ⟨-, heq⟩ <;> rw [heq] at herr ⊢
    have hput : ((s.advance (fieldWidth i)).put i x).result ≠ .error := by rwa [State.put_result]
    exact absurd herr (State.nextField_result_ne_error i hput)
  · exact absurd herr (State.nextField_result_ne_error i h)

/-- The rows that raise OutOfRange are BMP, the field phases and PRIM, each by fault entry (44_message_decoder.md R110). -/
theorem phaseStep_of_error {s t : State} (h : s.result ≠ .error) (hstep : phaseStep s = .next t)
    (herr : t.result = .error) : t = s.faultEntry := by
  rcases phaseStep_cases hstep with ⟨-, rfl⟩ | ⟨-, rfl⟩ | ⟨-, rfl⟩ | ⟨i, -, rfl⟩ | ⟨-, i, hi, hne, hexec⟩
  · exact absurd herr h
  · rcases envelopePhase_cases s with heq | ⟨-, -, -, heq⟩ <;> rw [heq] at herr
    · simp at herr
    · exact absurd herr h
  · rcases bitmapPhase_cases s with ⟨-, heq⟩ | ⟨-, heq⟩ <;> rw [heq] at herr ⊢
    exact absurd herr h
  · exact fieldPhase_of_error h herr
  · rcases exec_command_cases hi hne hexec with ⟨n, v, rfl⟩ | rfl
    · simp at herr
    · rfl

theorem acceptStart_result_ne_error {s : State} (h : s.result ≠ .error) : (acceptStart s).result ≠ .error := by
  rcases acceptStart_cases s with heq | ⟨-, heq⟩ | ⟨-, heq⟩ <;> rw [heq]
  · exact h
  all_goals simp

/-- Settles O52: no move of the host turns RESULT into ERROR, and a row of the phase table does so only by fault entry
(`phaseStep_of_error`). -/
theorem errorComesOnlyFromFaultEntry : Obligations.ErrorComesOnlyFromFaultEntry := by
  unfold Obligations.ErrorComesOnlyFromFaultEntry
  intro s t h hstep herr
  rcases step_cases hstep with ⟨rest, -, rfl⟩ | ⟨_, _, _, _, _, rest, -, -, rfl⟩ | ⟨rest, -, -, rfl⟩ | ⟨-, hrow⟩
  · simp at herr
  · exact absurd herr h
  · exact absurd herr (acceptStart_result_ne_error (s := s.withHost rest) h)
  · exact phaseStep_of_error (s := s.withHost s.host.tail) h hrow herr

end Sys2Proof.Machine

/-! ## Reset, the start of a pass and termination (70_reset_and_hazards.md)

What the host's RESET, an accepted START and a refused change of the inputs do to the state, that every pass comes to
DONE, and that no state of the invariant is stuck. -/
namespace Sys2Proof.Machine

/-! ### Start-of-pass initialisation (R133) -/

theorem afterStart_of_ne_zero {s : State} (hcmd : s.cmd ≠ 0#4) : afterStart s = s.beginPass s.offInit .prim := by
  rw [afterStart, if_neg hcmd, if_neg hcmd]
  rfl

theorem afterStart_busy (s : State) : (afterStart s).phase.busy = true := by
  by_cases hcmd : s.cmd = 0#4
  · rw [afterStart_of_zero hcmd]
    rfl
  · rw [afterStart_of_ne_zero hcmd]
    rfl

/-- A command code other than 0x0 and the reserved ones selects an operation other than DECODE (30_encoding.md R61). -/
theorem exists_primitive_of_cmd {code : BitVec 4} (hne : code ≠ 0#4) (hlt : code.toNat < 10) :
    ∃ i, decodeCmd code = .ok i ∧ i ≠ .decode := by
  obtain ⟨i, hi⟩ := (decodeCmd_isOk_iff code).2 hlt
  refine ⟨i, hi, ?_⟩
  rintro rfl
  exact hne (eq_zero_of_decodeCmd hi)

theorem acceptStart_eq_afterStart {s : State} (hlt : s.cmd.toNat < 10) : acceptStart s = afterStart s := by
  by_cases hcmd : s.cmd = 0#4
  · rw [acceptStart_of_zero hcmd, afterStart_of_zero hcmd]
  · obtain ⟨i, hi, hne⟩ := exists_primitive_of_cmd hcmd hlt
    rw [acceptStart_of_primitive hi hne, afterStart_of_ne_zero hcmd]

/-- Settles O3: between passes START is accepted, and a command that is not reserved begins its pass
(`acceptStart_eq_afterStart`). -/
theorem startBeginsAFreshPass : Obligations.StartBeginsAFreshPass := by
  unfold Obligations.StartBeginsAFreshPass
  intro s rest hhost hbetween hlt
  rw [step_of_host hhost, hostStep_start_of_not_busy (s := s.withHost rest) ((betweenPasses_iff s).1 hbetween),
    acceptStart_eq_afterStart (s := s.withHost rest) hlt]
  rfl

/-! ### Every pass comes to DONE (R142, R143) -/

/-- A primitive command ends with OK or ERROR (44_message_decoder.md R110, row PRIM). -/
theorem exec_command_result {s t : State} {i : Instr} (hi : decodeCmd s.cmd = .ok i) (hne : i ≠ .decode)
    (h : exec i s = .next t) : t.result = .ok ∨ t.result = .error := by
  rcases exec_command_cases hi hne h with ⟨n, v, rfl⟩ | rfl
  · exact .inl rfl
  · exact .inr rfl

/-- With a silent host the row PRIM ends the pass of a primitive command. -/
theorem primStep_ends {s : State} {i : Instr} (hp : s.phase = .prim) (hhost : s.host = [])
    (hi : decodeCmd s.cmd = .ok i) (hne : i ≠ .decode) :
    ∃ t, step s = .next t ∧ t.phase = .done ∧ (t.result = .ok ∨ t.result = .error) := by
  obtain ⟨t, hexec⟩ := exec_next i s
  have hrow : step s = .next t := by rw [step_of_silent hhost, phaseStep_prim hp hi hne, hexec]
  exact ⟨t, hrow, exec_command_phase hi hne hexec, exec_command_result hi hne hexec⟩

/-- Two steps from START run a primitive command: START, then the row PRIM. -/
theorem run_two_command {s : State} (hbetween : betweenPasses s) (hhost : s.host = [.start]) (hlt : s.cmd.toNat < 10)
    (hcmd : s.cmd ≠ 0#4) :
    ∃ t, core.run 2 s = .next t ∧ t.phase = .done ∧ (t.result = .ok ∨ t.result = .error) := by
  obtain ⟨i, hi, hne⟩ := exists_primitive_of_cmd hcmd hlt
  have hstart := step_of_only_start hbetween hhost
  rw [acceptStart_of_primitive (s := s.withHost []) hi hne] at hstart
  obtain ⟨t, hrow, hend⟩ := primStep_ends (s := (s.withHost []).beginPass s.offInit .prim) rfl rfl hi hne
  exact ⟨t, (core_run_succ hstart 1).trans (core_run_succ hrow 0), hend⟩

/-- Settles O36: START leaves the core BUSY (`afterStart_busy`), DECODE has run after eight steps (`run_eight_decode`)
and a primitive command after two (`run_two_command`). -/
theorem everyAcceptedStartReachesDone : Obligations.EveryAcceptedStartReachesDone := by
  unfold Obligations.EveryAcceptedStartReachesDone
  intro s hbetween hlt hhost
  refine ⟨⟨_, startBeginsAFreshPass s [] hhost hbetween hlt, afterStart_busy _⟩, ?_,
    run_two_command hbetween hhost hlt⟩
  by_cases hcmd : s.cmd = 0#4
  · exact ⟨8, _, by decide, le_rfl, run_eight_decode hbetween hhost hcmd, messagePass_phase _⟩
  · obtain ⟨t, hrun, hdone, -⟩ := run_two_command hbetween hhost hlt hcmd
    exact ⟨2, t, by decide, by decide, hrun, hdone⟩

/-! ### Every step answers, but for the refused one (R138, R143) -/

theorem hostStep_supply_of_busy {s : State} (h : s.phase.busy = true) (bytes : List Byte) (portValid : Bool)
    (port : Nat) (cmd : BitVec 4) (offInit : Nat) :
    hostStep s (.supply bytes portValid port cmd offInit) = .refused .inputsChangedWhileBusy := by
  simp [hostStep, h]

/-- Under the invariant every row of the phase table answers: in PRIM the command is a primitive one. -/
theorem phaseStep_next {s : State} (h : Inv s) : ∃ t, phaseStep s = .next t := by
  cases hp : s.phase with
  | idle => exact ⟨s, phaseStep_of_betweenPasses (.inl hp)⟩
  | done => exact ⟨s, phaseStep_of_betweenPasses (.inr hp)⟩
  | env => exact ⟨_, phaseStep_env hp⟩
  | bmp => exact ⟨_, phaseStep_bmp hp⟩
  | field i => exact ⟨_, phaseStep_field i s hp⟩
  | prim =>
    obtain ⟨-, -, -, -, hphase⟩ := h
    simp only [phaseInv, hp] at hphase
    obtain ⟨hpos, hlt, -⟩ := hphase
    have hcmd : s.cmd ≠ 0#4 := fun hzero => by simp [hzero] at hpos
    obtain ⟨i, hi, hne⟩ := exists_primitive_of_cmd hcmd hlt
    rw [phaseStep_prim hp hi hne]
    exact exec_next i s

/-- Settles O45, move by move of the host: where none takes the step it is the row of the phase, which answers
(`phaseStep_next`). -/
theorem noStepIsStuck : Obligations.NoStepIsStuck := by
  unfold Obligations.NoStepIsStuck
  intro s h
  cases hhost : s.host with
  | nil => exact .inl (step_of_silent hhost ▸ phaseStep_next h)
  | cons move rest =>
    rw [step_of_host hhost]
    have hrow := phaseStep_next (h.withHost rest)
    cases move with
    | wait => exact .inl hrow
    | reset => exact .inl ⟨_, rfl⟩
    | start =>
      cases hbusy : s.phase.busy with
      | true => exact .inl (hostStep_start_of_busy (s := s.withHost rest) hbusy ▸ hrow)
      | false => exact .inl ⟨_, hostStep_start_of_not_busy (s := s.withHost rest) hbusy⟩
    | supply bytes portValid port cmd offInit =>
      cases hbusy : s.phase.busy with
      | true => exact .inr ⟨rfl, bytes, portValid, port, cmd, offInit, rest, rfl⟩
      | false => exact .inl ⟨_, hostStep_supply_of_not_busy (s := s.withHost rest) hbusy _ _ _ _ _⟩

/-- Settles O8, by `hostStep_supply_of_busy`. -/
theorem inputChangeWhileBusyIsRefused : Obligations.InputChangeWhileBusyIsRefused := by
  unfold Obligations.InputChangeWhileBusyIsRefused
  intro s rest bytes portValid port cmd offInit hbusy hhost
  rw [step_of_host hhost, hostStep_supply_of_busy (s := s.withHost rest) hbusy]

/-! ### RESET (R132) -/

/-- Settles O1: RESET answers in any phase, and the core then waits in IDLE (`coreWaitsBetweenPasses`). -/
theorem resetEventRestoresEveryRegister : Obligations.ResetEventRestoresEveryRegister := by
  unfold Obligations.ResetEventRestoresEveryRegister
  intro s rest hhost
  have hidles : step ((s.withHost []).resetRegisters) = .next (s.withHost []).resetRegisters :=
    (coreWaitsBetweenPasses _ (.inl rfl)).1 rfl
  exact ⟨(s.withHost rest).resetRegisters, step_of_host hhost, rfl, rfl, rfl, rfl, rfl, rfl, rfl, rfl, rfl, rfl, rfl,
    rfl, rfl, rfl, hidles⟩

end Sys2Proof.Machine
